-- ==== Sys2Proof/Word.lean ====
section
/-! DEFINITION. The word types of the machine (spec/00_scope.md R5, spec/30_encoding.md R72). -/

namespace Sys2Proof

/-- A byte: a general register, a timer, a memory cell (R20, R34, R50). -/
abbrev Byte := BitVec 8

/-- A 16-bit word: an opcode, `pc`, `I`, a stack slot (R25, R26, R29, R70). -/
abbrev Word := BitVec 16

/-- A 12-bit address field `nnn` (R72). -/
abbrev Addr12 := BitVec 12

/-- The index of a general register, 0 to 15 (R20); also the sprite row count `n` and a key index. -/
abbrev Reg := Fin 16

/-- The flag register `VF = V[15]` (R22). -/
abbrev vf : Reg := 15

end Sys2Proof
end

