-- ==== Sys2Proof/Config.lean ====
section
/-! DEFINITION. The parameters of spec/00_scope.md R5: what the source fixes is a constant, what the spec fills in by a
decision is a field of `Config` with the spec's default (log 2). And the one free value, the random byte (log 3). -/

namespace Sys2Proof

/-- `MEM_SIZE`, bytes of memory: the source's number, "taken as fixed" (R5, R50, D9). -/
abbrev Config.memSize : Nat := 4096

/-- `STACK_DEPTH`, return-address slots (R5, R29). -/
abbrev Config.stackDepth : Nat := 16

/-- `GLYPH_BYTES`, bytes of one glyph (R5, R164). -/
abbrev Config.glyphBytes : Nat := 5

/-- `FONT_BYTES`, bytes of the font table (R5, R255). -/
abbrev Config.fontBytes : Nat := 80

/-- The glyphs of the digits 0 to 7, top row first (R255). -/
def Config.glyphsLow : List (List Byte) :=
  [[0xF0, 0x90, 0x90, 0x90, 0xF0], [0x20, 0x60, 0x20, 0x20, 0x70],
   [0xF0, 0x10, 0xF0, 0x80, 0xF0], [0xF0, 0x10, 0xF0, 0x10, 0xF0],
   [0x90, 0x90, 0xF0, 0x10, 0x10], [0xF0, 0x80, 0xF0, 0x10, 0xF0],
   [0xF0, 0x80, 0xF0, 0x90, 0xF0], [0xF0, 0x10, 0x20, 0x40, 0x40]]

/-- The glyphs of the digits 8 to F, top row first (R255). -/
def Config.glyphsHigh : List (List Byte) :=
  [[0xF0, 0x90, 0xF0, 0x90, 0xF0], [0xF0, 0x90, 0xF0, 0x10, 0xF0],
   [0xF0, 0x90, 0xF0, 0x90, 0x90], [0xE0, 0x90, 0xE0, 0x90, 0xE0],
   [0xF0, 0x80, 0x80, 0x80, 0xF0], [0xE0, 0x90, 0x90, 0x90, 0xE0],
   [0xF0, 0x80, 0xF0, 0x80, 0xF0], [0xF0, 0x80, 0xF0, 0x80, 0x80]]

/-- The customary font table, the default of `FONTSET` (R255, D8). -/
def Config.customaryFont : Vector Byte Config.fontBytes :=
  ⟨(Config.glyphsLow ++ Config.glyphsHigh).flatten.toArray, by decide⟩

/-- The parameters that the spec makes configuration fields, each with the default it shows (R5). -/
structure Config where
  /-- `ROM_START`, the ROM load offset and reset value of `pc` (D7) -/
  romStart : Word := 0x200
  /-- `WIDTH`, columns of the framebuffer (D6) -/
  width : Nat := 64
  /-- `HEIGHT`, rows of the framebuffer (D6) -/
  height : Nat := 32
  /-- `FONT_BASE`, the address of glyph 0 (D8) -/
  fontBase : Word := 0x000
  /-- `FONTSET`, the 80 font bytes (D8) -/
  fontset : Vector Byte Config.fontBytes := Config.customaryFont
  deriving DecidableEq, Repr

/-- The machine with every parameter at its default. -/
def Config.default : Config := {}

/-- The constraints on the parameters (R5). `MEM_SIZE <= 65536` holds of the constant. -/
def Config.wf (c : Config) : Bool :=
  decide (c.fontBase.toNat + Config.fontBytes ≤ c.romStart.toNat) && decide (c.romStart.toNat < Config.memSize) &&
    decide (8 ≤ c.width) && decide (1 ≤ c.height)

/-- DESIGN CHOICE (log 3), safe: the bytes the `rnd` input delivers, the k-th one to the k-th draw. FREE VALUE:
it has no body, so nothing can be proved of any of them (R150, R240, D19). -/
opaque Config.rndByte : Nat → Byte

end Sys2Proof
end

