-- ==== Sys2Proof/Machine/State.lean ====
section
/-! DEFINITION. The state of the machine, every element of spec/10_state.md, the reasons a step can stop, and the
state right after reset (R44, R250). -/

namespace Sys2Proof.Machine

/-- Memory as the list of the (address, byte) pairs whose byte is not what an unlisted address reads as. -/
abbrev Memory := List Host.Cell

/-- One raster line: its cells, column 0 first (R36). -/
abbrev Line := List Bool

/-- The framebuffer, "row-major": its raster lines, row 0 first (R36). That there are HEIGHT lines of WIDTH cells is an
invariant (`Frame.shaped`; DESIGN CHOICE, log 9, safe). -/
abbrev Frame := List Line

/-- The framebuffer with every cell 0. -/
def Frame.blank (width height : Nat) : Frame := List.replicate height (List.replicate width false)

/-- The five causes of a fault (R226). -/
inductive Cause where
  /-- code 1, raised by the fetch of any step (R223) -/
  | fetchOutOfBounds
  /-- code 2, raised by CALL (R224) -/
  | stackOverflow
  /-- code 3, raised by RET (R225) -/
  | stackUnderflow
  /-- code 4, raised by DRW, LD B,Vx, LD [I],Vx and LD Vx,[I] (R227) -/
  | memOutOfBounds
  /-- code 5, raised by SKP and SKNP (R200, R202) -/
  | keyIndexOutOfRange
  deriving DecidableEq, Repr

/-- What the fault latch records: the cause, the address of the step that faulted, and the information R226
names (R220). -/
structure FaultRecord where
  cause : Cause
  fpc   : Word
  info  : Word
  deriving DecidableEq, Repr

/-- Whose step comes next (R7), or what the caller does between two steps (R6). DESIGN CHOICE (log 4), safe. -/
inductive Turn where
  /-- the engine's step (R100) -/
  | engine
  /-- the input collaborator: a key goes down (R7, R38) -/
  | keyDown (k : Fin 16)
  /-- the input collaborator: a key goes up (R7, R38) -/
  | keyUp (k : Fin 16)
  /-- the external clock (R236) -/
  | tick
  /-- the display sink reads the framebuffer (R239) -/
  | display
  /-- the caller applies reset and then loads a ROM (R250, R254) -/
  | restart (rom : List Byte)
  deriving DecidableEq, Repr

/-- The state. `config` carries the parameters, which no step changes (log 2); the next eleven fields are the spec's
state; `draws` and `agenda` are the model's own and stand for inputs of the block (log 3, log 4). -/
structure State where
  /-- the parameters of this machine (R5); not state of the spec, and never written by a step (log 2) -/
  config : Config
  /-- the general registers `V[0]` .. `V[15]` (R20) -/
  v : Vector Byte 16
  /-- the index pointer `I` (R25) -/
  i : Word
  /-- the program counter (R26); in a state given to `exec` it is the post-fetch value (R10; log 6) -/
  pc : Word
  /-- the stack pointer, the number of live slots, 0 to 16 (R29) -/
  sp : Fin 17
  /-- the return-address slots (R29) -/
  stack : Vector Word Config.stackDepth
  /-- the delay timer (R34) -/
  dt : Byte
  /-- the sound timer (R34) -/
  st : Byte
  /-- the framebuffer (R36) -/
  fb : Frame
  /-- the key-state vector, true for pressed (R38) -/
  keys : Vector Bool 16
  /-- memory (R40) -/
  mem : Memory
  /-- the fault latch (R42) -/
  fault : Option FaultRecord
  /-- the model's own: how many random bytes have been drawn (log 3) -/
  draws : Nat
  /-- the model's own: the coming turns; when it is empty the engine steps (log 4) -/
  agenda : List Turn
  deriving DecidableEq, Repr

/-- Why a step stops. -/
inductive Fault where
  /-- Raised by the engine's turn in a machine whose fault latch is set: "while `fault != none` the engine has no
  step" (R222). No instruction raises it. Safe: the machine has no next state there either. -/
  | halted (record : FaultRecord)
  deriving DecidableEq, Repr

/-- Why the model gives a step no meaning. -/
inductive Refusal where
  /-- Raised by an arm of `exec` whose instruction has no meaning yet; no arm does. Safe. -/
  | notModelled (mnemonic : String)
  /-- Raised by the caller's turn `restart` when the ROM does not fit: "fail RomTooLarge ... the engine must not be
  started" (R254). No instruction raises it. Safe: the model goes no further where the spec forbids to go on. -/
  | romTooLarge (length : Nat)
  deriving DecidableEq, Repr

/-- What a step answers. -/
abbrev Result := Host.Outcome State Fault Refusal

/-- The machine with these parameters right after reset (R44, R250), before any boot image is loaded: everything zero
but `pc`. The model's own fields start at 0 draws and with nothing on the agenda (DESIGN CHOICE, log 3, log 4). -/
def State.resetWith (c : Config) : State where
  config := c
  v := Vector.replicate 16 0
  i := 0
  pc := c.romStart
  sp := 0
  stack := Vector.replicate Config.stackDepth 0
  dt := 0
  st := 0
  fb := Frame.blank c.width c.height
  keys := Vector.replicate 16 false
  mem := []
  fault := none
  draws := 0
  agenda := []

/-- The machine with the default parameters right after reset. -/
def State.reset : State := State.resetWith Config.default

end Sys2Proof.Machine
end

