-- ==== Sys2Proof/Machine/Ops.lean ====
section
/-! DEFINITION. The named operations the meanings are written with: memory, registers, pc, stack, and taking a
fault. -/

namespace Sys2Proof.Machine

/-! ### Memory (spec/20_memory.md) -/

/-- What an address that memory does not list reads as: memory is zero at construction (R44, R51, U13). -/
def Memory.unlisted : Byte := 0

/-- The byte at an address (R52; the bounds check is `inBounds`). -/
def Memory.read : Memory → Nat → Byte
  | [], _ => Memory.unlisted
  | (k, c) :: rest, a => if a = k then c else Memory.read rest a

/-- Memory with the byte at one address replaced (R53). An address outside the address space holds nothing and
is left so. The canonical form is kept: addresses rise, and a byte equal to the unlisted one is not listed. -/
def Memory.insert : Memory → Nat → Byte → Memory
  | [], a, b => if b = Memory.unlisted then [] else [(a, b)]
  | (k, c) :: rest, a, b =>
    if a < k then (if b = Memory.unlisted then (k, c) :: rest else (a, b) :: (k, c) :: rest)
    else if a = k then (if b = Memory.unlisted then rest else (a, b) :: rest)
    else (k, c) :: Memory.insert rest a b

/-- `MemWrite` of an address of the address space (R53); no other address is ever written. -/
def Memory.write (m : Memory) (a : Nat) (b : Byte) : Memory :=
  if a < Config.memSize then m.insert a b else m

/-- Bytes written at ascending addresses from `a` (R56). -/
def Memory.writeBytes (m : Memory) (a : Nat) : List Byte → Memory
  | [] => m
  | b :: bs => Memory.writeBytes (m.write a b) (a + 1) bs

/-- The `count` bytes at ascending addresses from `a` (R56). -/
def Memory.readBytes (m : Memory) (a : Nat) : Nat → List Byte
  | 0 => []
  | count + 1 => m.read a :: Memory.readBytes m (a + 1) count

/-- The canonical form from address `lo` on: addresses rise, lie in the address space, and list no byte that an
unlisted address reads as. -/
def Memory.wfFrom (lo : Nat) : Memory → Bool
  | [] => true
  | (k, c) :: rest => decide (lo ≤ k) && decide (k < Config.memSize) && c != Memory.unlisted && Memory.wfFrom (k + 1) rest

/-- The canonical form of memory (log 7). -/
def Memory.wf (m : Memory) : Bool := Memory.wfFrom 0 m

/-- The whole range `[base, base + count)` lies in memory; an empty range does (R54, R183 (b)). The sum is exact:
no address wraps. -/
def inBounds (base count : Nat) : Bool := count == 0 || decide (base + count ≤ Config.memSize)

/-! ### Registers, pc, stack (spec/10_state.md) -/

/-- `V[r]` (R20). -/
def State.reg (s : State) (r : Reg) : Byte := s.v[r]

/-- `V[r] <- b` (R20). No register is hard-wired. -/
def State.setReg (s : State) (r : Reg) (b : Byte) : State := { s with v := s.v.set r b }

/-- The result to `V[x]`, then the flag to `VF`: with `x = 15` the flag stays (R10, R24). -/
def State.setResultThenFlag (s : State) (x : Reg) (result flag : Byte) : State :=
  (s.setReg x result).setReg vf flag

/-- `pc <- target` (R9). -/
def State.setPc (s : State) (target : Word) : State := { s with pc := target }

/-- "advance PC by an additional 2" if the condition holds (R116 to R120, R200, R202). -/
def State.skipIf (s : State) (condition : Bool) : State :=
  if condition then s.setPc (s.pc + 2) else s

/-- `I <- a` (R25). -/
def State.setI (s : State) (a : Word) : State := { s with i := a }

/-- Write a slot, then count it: the slot of a `SP` below 16 (R29, R114). -/
def State.push (s : State) (h : s.sp.val < Config.stackDepth) (a : Word) : State :=
  { s with stack := s.stack.set s.sp.val a h, sp := ⟨s.sp.val + 1, Nat.succ_lt_succ h⟩ }

/-- Uncount a slot and answer what it holds; the slot keeps its value (R30, R110). -/
def State.pop (s : State) (h : 0 < s.sp.val) : Word × State :=
  (s.stack[s.sp.val - 1]'(Nat.lt_of_lt_of_le (Nat.sub_lt h Nat.one_pos) (Nat.le_of_lt_succ s.sp.isLt)),
    { s with sp := ⟨s.sp.val - 1, Nat.lt_of_le_of_lt (Nat.sub_le _ _) s.sp.isLt⟩ })

/-! ### Taking a fault (spec/60_exceptions.md) -/

/-- Fault entry (R221): the latch records the cause, the address of the step and the information; `pc` is that
address; nothing else changes, and control goes nowhere. It is a next state: the halt of R222 is the engine's
next turn (log 5). There is no return from a fault (R222): only reset clears the latch. -/
def takeFault (cause : Cause) (pc0 info : Word) (s : State) : Result :=
  .next { s with pc := pc0, fault := some ⟨cause, pc0, info⟩ }

/-- A fault raised while an instruction executes: `pc` is the post-fetch value, so the step began 2 below it (R10,
R100, R221; DEDUCED, log 6, safe). -/
def raise (cause : Cause) (info : Word) (s : State) : Result :=
  takeFault cause (s.pc - 2) info s

/-- The lowest out-of-range address of a range at `I` that is not in bounds, `max(I, MEM_SIZE)` (R54, R226). -/
def lowestOutOfRange (i : Word) : Word := BitVec.ofNat 16 (max i.toNat Config.memSize)

/-- Check the whole range `[I, I + count)`, then go on (R54, R227). -/
def withRange (count : Nat) (s : State) (go : Result) : Result :=
  if inBounds s.i.toNat count then go else raise .memOutOfBounds (lowestOutOfRange s.i) s

/-- The numeric code of a cause (R226). -/
def Cause.code : Cause → Nat
  | .fetchOutOfBounds => 1
  | .stackOverflow => 2
  | .stackUnderflow => 3
  | .memOutOfBounds => 4
  | .keyIndexOutOfRange => 5

/-- The `fault` port: the cause code, or none (R6). -/
def faultPort (s : State) : Option Nat := s.fault.map fun r => r.cause.code

end Sys2Proof.Machine
end

