-- ==== Sys2Proof/Machine/Agents.lean ====
section
/-! DEFINITION. The agents besides the engine (spec/00_scope.md R7), the ports they use (R6), and the boot procedure
(spec/70_reset_and_hazards.md R254). -/

namespace Sys2Proof.Machine

/-- A timer counts down and stays at 0 (R236). -/
def countDown (t : Byte) : Byte := if t = 0 then 0 else t - 1

/-- One `tick` of the external clock (R236). -/
def tick (s : State) : State := { s with dt := countDown s.dt, st := countDown s.st }

/-- The input collaborator's write of one key (R7, R38). -/
def setKey (k : Fin 16) (pressed : Bool) (s : State) : State := { s with keys := s.keys.set k pressed }

/-- Key-down sets true (R7). -/
def keyDown (k : Fin 16) (s : State) : State := setKey k true s

/-- Key-up sets false (R7). -/
def keyUp (k : Fin 16) (s : State) : State := setKey k false s

/-- The `fb` port: the row-major linear array of cells (R36, R239). -/
def framebufferOut (s : State) : List Bool := s.fb.flatten

/-- Why `load` fails (R254). -/
inductive LoadError where
  /-- `RomTooLarge`: the ROM is longer than `MEM_SIZE - ROM_START` -/
  | romTooLarge
  deriving DecidableEq, Repr

/-- `load` (R254): the size check, the ROM, the font. On failure no state comes back: memory is as it was. -/
def load (rom : List Byte) (s : State) : Except LoadError State :=
  if rom.length ≤ Config.memSize - s.config.romStart.toNat then
    .ok { s with
      mem := (s.mem.writeBytes s.config.romStart.toNat rom).writeBytes s.config.fontBase.toNat s.config.fontset.toList }
  else .error .romTooLarge

/-- The machine with these parameters as it stands before its first step: reset, then load (R250, R254). -/
def boot (c : Config) (rom : List Byte) : Except LoadError State := load rom (State.resetWith c)

/-- Reset while running, and the boot that must follow it before the next step (R250). The coming turns and the
random input are not the block's state and go on (DESIGN CHOICE, log 12, log 13, safe). -/
def restart (rom : List Byte) (s : State) : Result :=
  match load rom { State.resetWith s.config with draws := s.draws, agenda := s.agenda } with
  | .ok t => .next t
  | .error .romTooLarge => .refused (.romTooLarge rom.length)

end Sys2Proof.Machine
end

