-- ==== Sys2Proof/Machine/Flags.lean ====
section
/-! DEFINITION. The flag computations: the value each flag-writing instruction puts in `VF` (spec/10_state.md R23).
All comparisons are of unsigned values (spec/00_scope.md R9). -/

namespace Sys2Proof.Machine

/-- A flag is exactly `0x00` or `0x01` (R22). -/
def flagByte (b : Bool) : Byte := if b then 1 else 0

/-- ADD Vx,Vy: 1 if the exact sum exceeds 255 (R140). -/
def carryFlag (a b : Byte) : Byte := flagByte (decide (255 < a.toNat + b.toNat))

/-- SUB Vx,Vy: 1 if `V[x]` is strictly greater (R142). -/
def subFlag (a b : Byte) : Byte := flagByte (decide (b.toNat < a.toNat))

/-- SUBN Vx,Vy: 0 if `V[x]` is strictly greater, else 1 (R146). -/
def subnFlag (a b : Byte) : Byte := flagByte (!decide (b.toNat < a.toNat))

/-- SHR Vx: the low bit, before the shift (R144). -/
def shrFlag (a : Byte) : Byte := flagByte (a.getLsbD 0)

/-- SHL Vx: bit 7, before the shift (R148). -/
def shlFlag (a : Byte) : Byte := flagByte (a.getLsbD 7)

/-- DRW: 1 if some cell went from 1 to 0 (R182). -/
def collisionFlag (collided : Bool) : Byte := flagByte collided

end Sys2Proof.Machine
end

