-- ==== Sys2Proof/Machine/Alu.lean ====
section
/-! DEFINITION. The ALU (spec/42_alu.md). Values are 8-bit unsigned and results wrap (R128); operands are read
first and the flag is written last (R10, R24). -/

namespace Sys2Proof.Machine

/-- LD Vx,byte (R130). -/
def execLdByte (x : Reg) (kk : Byte) (s : State) : Result := .next (s.setReg x kk)

/-- ADD Vx,byte (R132): no flag. -/
def execAddByte (x : Reg) (kk : Byte) (s : State) : Result := .next (s.setReg x (s.reg x + kk))

/-- LD Vx,Vy (R134). -/
def execLdReg (x y : Reg) (s : State) : Result := .next (s.setReg x (s.reg y))

/-- OR Vx,Vy (R136): no flag. -/
def execOrReg (x y : Reg) (s : State) : Result := .next (s.setReg x (s.reg x ||| s.reg y))

/-- AND Vx,Vy (R137): no flag. -/
def execAndReg (x y : Reg) (s : State) : Result := .next (s.setReg x (s.reg x &&& s.reg y))

/-- XOR Vx,Vy (R138): no flag. -/
def execXorReg (x y : Reg) (s : State) : Result := .next (s.setReg x (s.reg x ^^^ s.reg y))

/-- ADD Vx,Vy (R140). -/
def execAddReg (x y : Reg) (s : State) : Result :=
  .next (s.setResultThenFlag x (s.reg x + s.reg y) (carryFlag (s.reg x) (s.reg y)))

/-- SUB Vx,Vy (R142): the flag is strictly-greater, not "no borrow" (R129). -/
def execSubReg (x y : Reg) (s : State) : Result :=
  .next (s.setResultThenFlag x (s.reg x - s.reg y) (subFlag (s.reg x) (s.reg y)))

/-- SHR Vx (R144): shifts `V[x]`, a zero enters bit 7. -/
def execShr (x : Reg) (s : State) : Result :=
  .next (s.setResultThenFlag x (s.reg x >>> 1) (shrFlag (s.reg x)))

/-- SUBN Vx,Vy (R146). -/
def execSubnReg (x y : Reg) (s : State) : Result :=
  .next (s.setResultThenFlag x (s.reg y - s.reg x) (subnFlag (s.reg x) (s.reg y)))

/-- SHL Vx (R148): shifts `V[x]`, a zero enters bit 0. -/
def execShl (x : Reg) (s : State) : Result :=
  .next (s.setResultThenFlag x (s.reg x <<< 1) (shlFlag (s.reg x)))

/-- RND Vx,byte (R150): the next random byte, a free value (log 3), and the draw is counted. -/
def execRnd (x : Reg) (kk : Byte) (s : State) : Result :=
  .next { s.setReg x (Config.rndByte s.draws &&& kk) with draws := s.draws + 1 }

end Sys2Proof.Machine
end

