-- ==== Sys2Proof/Machine/Operands.lean ====
section
/-! DEFINITION. The operand forms: how the instructions turn fields and registers into values, addresses, digits
and keys. -/

namespace Sys2Proof.Machine

/-- `zext_16(nnn)` (R73). -/
def zextAddr (nnn : Addr12) : Word := nnn.setWidth 16

/-- `zext_16(v)` of a register value (R122, R162). -/
def zextByte (b : Byte) : Word := b.setWidth 16

/-- The target of JP V0,addr: `nnn + V[0]`, not reduced modulo `MEM_SIZE` (R122). -/
def offsetTarget (nnn : Addr12) (offset : Byte) : Word := zextAddr nnn + zextByte offset

/-- The address of the glyph of the low nibble of a value, in a font at `fontBase` (R164). -/
def glyphAddress (fontBase : Word) (b : Byte) : Word :=
  fontBase + BitVec.ofNat 16 (Config.glyphBytes * (b.toNat % 16))

/-- Hundreds, tens and units of a value, in that order (R166). -/
def bcdDigits (b : Byte) : List Byte := [b / 100, (b / 10) % 10, b % 10]

/-- The bytes `V[0]` .. `V[x]`, in that order (R168). -/
def savedBytes (s : State) (x : Reg) : List Byte := s.v.toList.take (x.val + 1)

/-- The registers with `V[0]` .. `V[x]` replaced by the bytes from `I` on (R170). -/
def restoredRegs (s : State) (x : Reg) : Vector Byte 16 :=
  Vector.ofFn fun k => if k.val ≤ x.val then s.mem.read (s.i.toNat + k.val) else s.reg k

/-- The key a register value names, if it is one of the 16 (R200, R202): the value is not masked (D14). -/
def keyIndex (b : Byte) : Option (Fin 16) := if h : b.toNat < 16 then some ⟨b.toNat, h⟩ else none

/-- The smallest pressed key, "scan KeyState from index 0 upward" (R204). -/
def firstPressed (s : State) : Option Nat := s.keys.toList.findIdx? id

end Sys2Proof.Machine
end

