-- ==== Sys2Proof/Machine/Control.lean ====
section
/-! DEFINITION. Control transfer (spec/41_control_flow.md). `pc` is the post-fetch value (R10). Targets are not
checked when the transfer executes. -/

namespace Sys2Proof.Machine

/-- RET (R110): pop into `pc`; a fault when nothing is held. -/
def execRet (s : State) : Result :=
  if h : 0 < s.sp.val then .next ((s.pop h).2.setPc (s.pop h).1) else raise .stackUnderflow 0 s

/-- JP addr (R112). -/
def execJp (nnn : Addr12) (s : State) : Result := .next (s.setPc (zextAddr nnn))

/-- CALL addr (R114): push the address of the next instruction, then jump; a fault when 16 are held, with the
call target as information (R224). -/
def execCall (nnn : Addr12) (s : State) : Result :=
  if h : s.sp.val < Config.stackDepth then .next ((s.push h s.pc).setPc (zextAddr nnn))
  else raise .stackOverflow (zextAddr nnn) s

/-- SE Vx,byte (R116). -/
def execSeByte (x : Reg) (kk : Byte) (s : State) : Result := .next (s.skipIf (s.reg x == kk))

/-- SNE Vx,byte (R117). -/
def execSneByte (x : Reg) (kk : Byte) (s : State) : Result := .next (s.skipIf (s.reg x != kk))

/-- SE Vx,Vy (R118). -/
def execSeReg (x y : Reg) (s : State) : Result := .next (s.skipIf (s.reg x == s.reg y))

/-- SNE Vx,Vy (R120). -/
def execSneReg (x y : Reg) (s : State) : Result := .next (s.skipIf (s.reg x != s.reg y))

/-- JP V0,addr (R122): always `V[0]`. -/
def execJpV0 (nnn : Addr12) (s : State) : Result := .next (s.setPc (offsetTarget nnn (s.reg 0)))

end Sys2Proof.Machine
end

