-- ==== Sys2Proof/Machine/Display.lean ====
section
/-! DEFINITION. The display instructions and the raster-line collision detector (spec/44_display.md). -/

namespace Sys2Proof.Machine

/-- The cell in column `col` of a line; a place past its end holds no lit cell (R36). -/
def Line.cell (l : Line) (col : Nat) : Bool := l[col]?.getD false

/-- The cell in row `row` and column `col`; a place outside the framebuffer holds no lit cell (R36). -/
def Frame.cell (fb : Frame) (row col : Nat) : Bool := Line.cell (fb[row]?.getD []) col

/-- A "fixed-size grid": `height` lines of `width` cells each (R36). -/
def Frame.shaped (width height : Nat) (fb : Frame) : Bool :=
  fb.length == height && fb.all fun line => line.length == width

/-- The row mask of one sprite row at anchor column `ax`: the sprite's bit 7 on column `ax`, and the columns past
the right edge dropped (R181). -/
def rowMask (width : Nat) (sprite : Byte) (ax : Nat) : Line :=
  (List.range width).map fun col =>
    decide (ax ≤ col) && decide (col - ax ≤ 7) && sprite.getLsbD (7 - (col - ax))

/-- The new content of a line: the mask XORed in (R181). -/
def flipLine (line mask : Line) : Line := List.zipWith (· ^^ ·) line mask

/-- The detector's hit: some cell of the line is 1 and is flipped (R181). -/
def lineHit (line mask : Line) : Bool := (List.zipWith (· && ·) line mask).any id

/-- Draw sprite rows from framebuffer row `py` down, and say whether any cell went from 1 to 0. Rows past the
bottom edge, where there is no line, are dropped (R182). -/
def drawRows (width ax : Nat) : Nat → List Byte → Frame → Frame × Bool
  | _, [], fb => (fb, false)
  | py, sprite :: rest, fb =>
    match fb[py]? with
    | some line =>
      let drawn := drawRows width ax (py + 1) rest (fb.set py (flipLine line (rowMask width sprite ax)))
      (drawn.1, lineHit line (rowMask width sprite ax) || drawn.2)
    | none => drawRows width ax (py + 1) rest fb

/-- The sprite's anchor, reduced modulo the framebuffer's size (R182): column and row. -/
def anchor (s : State) (x y : Reg) : Nat × Nat :=
  ((s.reg x).toNat % s.config.width, (s.reg y).toNat % s.config.height)

/-- The sprite of DRW: `n` bytes from `I` on, all of them read, clipped or not (R182). -/
def spriteBytes (s : State) (n : Fin 16) : List Byte := s.mem.readBytes s.i.toNat n.val

/-- The framebuffer after DRW, and whether it collided (R182). -/
def drawSprite (s : State) (x y : Reg) (n : Fin 16) : Frame × Bool :=
  drawRows s.config.width (anchor s x y).1 (anchor s x y).2 (spriteBytes s n) s.fb

/-- CLS (R180): every cell 0; no flag. -/
def execCls (s : State) : Result := .next { s with fb := Frame.blank s.config.width s.config.height }

/-- DRW Vx,Vy,n (R182, R183): range check, draw, then the flag, always written. -/
def execDrw (x y : Reg) (n : Fin 16) (s : State) : Result :=
  withRange n.val s
    (.next ({ s with fb := (drawSprite s x y n).1 }.setReg vf (collisionFlag (drawSprite s x y n).2)))

end Sys2Proof.Machine
end

