-- ==== Sys2Proof/Machine/IndexMemory.lean ====
section
/-! DEFINITION. The index pointer and the memory instructions (spec/43_index_memory.md). `I` is the same after a
load or store as before it (R168, R170). -/

namespace Sys2Proof.Machine

/-- LD I,addr (R160). -/
def execLdI (nnn : Addr12) (s : State) : Result := .next (s.setI (zextAddr nnn))

/-- ADD I,Vx (R162): 16 bits, wraps, no flag. -/
def execAddIVx (x : Reg) (s : State) : Result := .next (s.setI (s.i + zextByte (s.reg x)))

/-- LD F,Vx (R164): computes an address, reads no memory. -/
def execLdFVx (x : Reg) (s : State) : Result := .next (s.setI (glyphAddress s.config.fontBase (s.reg x)))

/-- LD B,Vx (R166): three decimal digits, after the range check. -/
def execLdBVx (x : Reg) (s : State) : Result :=
  withRange 3 s (.next { s with mem := s.mem.writeBytes s.i.toNat (bcdDigits (s.reg x)) })

/-- LD [I],Vx (R168): `V[0]` .. `V[x]`, after the range check. -/
def execLdMemVx (x : Reg) (s : State) : Result :=
  withRange (x.val + 1) s (.next { s with mem := s.mem.writeBytes s.i.toNat (savedBytes s x) })

/-- LD Vx,[I] (R170): `V[0]` .. `V[x]`, after the range check. -/
def execLdVxMem (x : Reg) (s : State) : Result :=
  withRange (x.val + 1) s (.next { s with v := restoredRegs s x })

end Sys2Proof.Machine
end

