-- ==== Sys2Proof/Machine/KeysTimers.lean ====
section
/-! DEFINITION. The key and timer instructions (spec/45_keys_timers.md). -/

namespace Sys2Proof.Machine

/-- Run with the key a register names, or fault with the register's value as information (R200, R202, R226). -/
def withKey (x : Reg) (s : State) (go : Fin 16 → Result) : Result :=
  match keyIndex (s.reg x) with
  | some k => go k
  | none => raise .keyIndexOutOfRange (zextByte (s.reg x)) s

/-- SKP Vx (R200): skip if the key is pressed. -/
def execSkp (x : Reg) (s : State) : Result := withKey x s fun k => .next (s.skipIf s.keys[k])

/-- SKNP Vx (R202): skip if the key is not pressed. -/
def execSknp (x : Reg) (s : State) : Result := withKey x s fun k => .next (s.skipIf (!s.keys[k]))

/-- LD Vx,DT (R206). -/
def execLdVxDT (x : Reg) (s : State) : Result := .next (s.setReg x s.dt)

/-- LD Vx,K (R204): the smallest pressed key; with none pressed `pc` goes back to this instruction. -/
def execLdVxK (x : Reg) (s : State) : Result :=
  match firstPressed s with
  | some k => .next (s.setReg x (BitVec.ofNat 8 k))
  | none => .next (s.setPc (s.pc - 2))

/-- LD DT,Vx (R208). -/
def execLdDTVx (x : Reg) (s : State) : Result := .next { s with dt := s.reg x }

/-- LD ST,Vx (R210). -/
def execLdSTVx (x : Reg) (s : State) : Result := .next { s with st := s.reg x }

end Sys2Proof.Machine
end

