-- ==== Sys2Proof/Machine/System.lean ====
section
/-! DEFINITION. SYS and the no-op fallback (spec/40_cycle_and_system.md). The fetch has already advanced `pc`. -/

namespace Sys2Proof.Machine

/-- SYS addr: nothing; `nnn` is ignored (R102, D5). -/
def execSys (_nnn : Addr12) (s : State) : Result := .next s

/-- NOP, the fallback: nothing (R104). -/
def execNop (s : State) : Result := .next s

end Sys2Proof.Machine
end

