-- ==== Sys2Proof/Syntax.lean ====
section
/-! DEFINITION. The instructions: one constructor per row of spec/opcode_table.json, in the table's order
(spec/30_encoding.md R76). The operands are the fields the row's format uses (R72, R74); a field that the
decoder ignores is no operand. -/

namespace Sys2Proof

/-- An instruction variant, or the no-op fallback (R75, R76). `x` and `y` name registers, `kk` is the immediate
byte, `nnn` the 12-bit address, `n` the sprite row count. -/
inductive Instr where
  /-- CLS (R180) -/
  | cls
  /-- RET (R110) -/
  | ret
  /-- SYS addr (R102) -/
  | sys (nnn : Addr12)
  /-- JP addr (R112) -/
  | jp (nnn : Addr12)
  /-- CALL addr (R114) -/
  | call (nnn : Addr12)
  /-- SE Vx,byte (R116) -/
  | seByte (x : Reg) (kk : Byte)
  /-- SNE Vx,byte (R117) -/
  | sneByte (x : Reg) (kk : Byte)
  /-- SE Vx,Vy (R118) -/
  | seReg (x y : Reg)
  /-- LD Vx,byte (R130) -/
  | ldByte (x : Reg) (kk : Byte)
  /-- ADD Vx,byte (R132) -/
  | addByte (x : Reg) (kk : Byte)
  /-- LD Vx,Vy (R134) -/
  | ldReg (x y : Reg)
  /-- OR Vx,Vy (R136) -/
  | orReg (x y : Reg)
  /-- AND Vx,Vy (R137) -/
  | andReg (x y : Reg)
  /-- XOR Vx,Vy (R138) -/
  | xorReg (x y : Reg)
  /-- ADD Vx,Vy (R140) -/
  | addReg (x y : Reg)
  /-- SUB Vx,Vy (R142) -/
  | subReg (x y : Reg)
  /-- SHR Vx (R144); the `y` field is ignored -/
  | shr (x : Reg)
  /-- SUBN Vx,Vy (R146) -/
  | subnReg (x y : Reg)
  /-- SHL Vx (R148); the `y` field is ignored -/
  | shl (x : Reg)
  /-- SNE Vx,Vy (R120) -/
  | sneReg (x y : Reg)
  /-- LD I,addr (R160) -/
  | ldI (nnn : Addr12)
  /-- JP V0,addr (R122) -/
  | jpV0 (nnn : Addr12)
  /-- RND Vx,byte (R150) -/
  | rnd (x : Reg) (kk : Byte)
  /-- DRW Vx,Vy,n (R182) -/
  | drw (x y : Reg) (n : Fin 16)
  /-- SKP Vx (R200) -/
  | skp (x : Reg)
  /-- SKNP Vx (R202) -/
  | sknp (x : Reg)
  /-- LD Vx,DT (R206) -/
  | ldVxDT (x : Reg)
  /-- LD Vx,K (R204) -/
  | ldVxK (x : Reg)
  /-- LD DT,Vx (R208) -/
  | ldDTVx (x : Reg)
  /-- LD ST,Vx (R210) -/
  | ldSTVx (x : Reg)
  /-- ADD I,Vx (R162) -/
  | addIVx (x : Reg)
  /-- LD F,Vx (R164) -/
  | ldFVx (x : Reg)
  /-- LD B,Vx (R166) -/
  | ldBVx (x : Reg)
  /-- LD [I],Vx (R168) -/
  | ldMemVx (x : Reg)
  /-- LD Vx,[I] (R170) -/
  | ldVxMem (x : Reg)
  /-- NOP, the fallback of every opcode that matches no other row (R104) -/
  | nop
  deriving DecidableEq, Repr

end Sys2Proof
end

