-- ==== Sys2Proof/WellFormed.lean ====
section
/-! DEFINITION. Which instructions have an opcode. The operand types bound every field; the one check left is that
no SYS has the low byte of CLS or RET, because those rows are tested first (spec/30_encoding.md R76, R102). -/

namespace Sys2Proof

/-- The low byte of `nnn` is neither `0xE0` nor `0xEE` (R102: "every `nnn` whose low byte is neither"). -/
def sysOperandOk (nnn : Addr12) : Bool :=
  nnn.extractLsb' 0 8 != 0xE0 && nnn.extractLsb' 0 8 != 0xEE

/-- The instruction is one some opcode decodes to. -/
def Instr.wellFormed : Instr → Bool
  | .sys nnn => sysOperandOk nnn
  | .cls | .ret | .jp _ | .call _ | .seByte _ _ | .sneByte _ _ | .seReg _ _ | .ldByte _ _ | .addByte _ _ => true
  | .ldReg _ _ | .orReg _ _ | .andReg _ _ | .xorReg _ _ | .addReg _ _ | .subReg _ _ | .shr _ | .subnReg _ _ => true
  | .shl _ | .sneReg _ _ | .ldI _ | .jpV0 _ | .rnd _ _ | .drw _ _ _ | .skp _ | .sknp _ | .ldVxDT _ => true
  | .ldVxK _ | .ldDTVx _ | .ldSTVx _ | .addIVx _ | .ldFVx _ | .ldBVx _ | .ldMemVx _ | .ldVxMem _ | .nop => true

end Sys2Proof
end

