-- ==== Sys2Proof/Decode.lean ====
section
/-! DEFINITION. The decoder and the encoder (spec/30_encoding.md). The decoder is the opcode map of R76 read row
by row, first match wins; the encoder writes the row's selecting bits and the operand fields. -/

namespace Sys2Proof

/-- `x = op[11:8]` (R72). -/
def fieldX (op : Word) : Reg := (op.extractLsb' 8 4).toFin

/-- `y = op[7:4]` (R72). -/
def fieldY (op : Word) : Reg := (op.extractLsb' 4 4).toFin

/-- `n = op[3:0]` (R72). -/
def fieldN (op : Word) : Fin 16 := (op.extractLsb' 0 4).toFin

/-- `kk = op[7:0]` (R72). -/
def fieldKK (op : Word) : Byte := op.extractLsb' 0 8

/-- `nnn = op[11:0]` (R72). -/
def fieldNNN (op : Word) : Addr12 := op.extractLsb' 0 12

/-- The opcode selects the row with this mask and match (R76: `op & mask = match`). -/
def selects (op mask pattern : Word) : Bool := op &&& mask == pattern

/-- `decode` (R75): a total function of the opcode alone. The rows are those of R76, in its order. -/
def decode (op : Word) : Instr :=
  if selects op 0xF0FF 0x00E0 then .cls
  else if selects op 0xF0FF 0x00EE then .ret
  else if selects op 0xF000 0x0000 then .sys (fieldNNN op)
  else if selects op 0xF000 0x1000 then .jp (fieldNNN op)
  else if selects op 0xF000 0x2000 then .call (fieldNNN op)
  else if selects op 0xF000 0x3000 then .seByte (fieldX op) (fieldKK op)
  else if selects op 0xF000 0x4000 then .sneByte (fieldX op) (fieldKK op)
  else if selects op 0xF000 0x5000 then .seReg (fieldX op) (fieldY op)
  else if selects op 0xF000 0x6000 then .ldByte (fieldX op) (fieldKK op)
  else if selects op 0xF000 0x7000 then .addByte (fieldX op) (fieldKK op)
  else if selects op 0xF00F 0x8000 then .ldReg (fieldX op) (fieldY op)
  else if selects op 0xF00F 0x8001 then .orReg (fieldX op) (fieldY op)
  else if selects op 0xF00F 0x8002 then .andReg (fieldX op) (fieldY op)
  else if selects op 0xF00F 0x8003 then .xorReg (fieldX op) (fieldY op)
  else if selects op 0xF00F 0x8004 then .addReg (fieldX op) (fieldY op)
  else if selects op 0xF00F 0x8005 then .subReg (fieldX op) (fieldY op)
  else if selects op 0xF00F 0x8006 then .shr (fieldX op)
  else if selects op 0xF00F 0x8007 then .subnReg (fieldX op) (fieldY op)
  else if selects op 0xF00F 0x800E then .shl (fieldX op)
  else if selects op 0xF000 0x9000 then .sneReg (fieldX op) (fieldY op)
  else if selects op 0xF000 0xA000 then .ldI (fieldNNN op)
  else if selects op 0xF000 0xB000 then .jpV0 (fieldNNN op)
  else if selects op 0xF000 0xC000 then .rnd (fieldX op) (fieldKK op)
  else if selects op 0xF000 0xD000 then .drw (fieldX op) (fieldY op) (fieldN op)
  else if selects op 0xF0FF 0xE09E then .skp (fieldX op)
  else if selects op 0xF0FF 0xE0A1 then .sknp (fieldX op)
  else if selects op 0xF0FF 0xF007 then .ldVxDT (fieldX op)
  else if selects op 0xF0FF 0xF00A then .ldVxK (fieldX op)
  else if selects op 0xF0FF 0xF015 then .ldDTVx (fieldX op)
  else if selects op 0xF0FF 0xF018 then .ldSTVx (fieldX op)
  else if selects op 0xF0FF 0xF01E then .addIVx (fieldX op)
  else if selects op 0xF0FF 0xF029 then .ldFVx (fieldX op)
  else if selects op 0xF0FF 0xF033 then .ldBVx (fieldX op)
  else if selects op 0xF0FF 0xF055 then .ldMemVx (fieldX op)
  else if selects op 0xF0FF 0xF065 then .ldVxMem (fieldX op)
  else .nop

/-- The opcode formed from the byte at the lower address, its high half, and the next byte (R55). -/
def opcodeOfBytes (hi lo : Byte) : Word := hi ++ lo

/-- The two bytes of an opcode as memory holds them, the high half first (R55). -/
def bytesOfOpcode (op : Word) : List Byte := [op.extractLsb' 8 8, op.extractLsb' 0 8]

/-- Why bytes hold no instruction. -/
inductive DecodeError where
  /-- fewer than the two bytes of an opcode (R70); no opcode is refused, only its absence -/
  | truncated
  deriving DecidableEq, Repr

/-- The instruction at the head of a byte sequence, and the bytes after it. Total on any bytes. -/
def decodeBytes : List Byte → Except DecodeError (Instr × List Byte)
  | hi :: lo :: rest => .ok (decode (opcodeOfBytes hi lo), rest)
  | [_] => .error .truncated
  | [] => .error .truncated

/-- The four bits of a register or count field. -/
def regBits (r : Fin 16) : BitVec 4 := BitVec.ofFin r

/-- Format A (R74): group nibble and address. -/
def formatA (group : BitVec 4) (nnn : Addr12) : Word := group ++ nnn

/-- Format XK (R74): group nibble, register, byte. -/
def formatXK (group : BitVec 4) (x : Reg) (kk : Byte) : Word := group ++ regBits x ++ kk

/-- Formats XYS and XYN (R74): group nibble, two registers, low nibble. -/
def formatXY (group : BitVec 4) (x y : Reg) (low : BitVec 4) : Word := group ++ regBits x ++ regBits y ++ low

/-- The opcode of an instruction, from the rows of R76. Where a row ignores bits, or an instruction has many
opcodes, the word is one of them: ignored bits 0, and `0xFFFF` for the fallback (DESIGN CHOICE, log 11, safe). -/
def encode : Instr → Word
  | .cls => 0x00E0
  | .ret => 0x00EE
  | .sys nnn => formatA 0x0 nnn
  | .jp nnn => formatA 0x1 nnn
  | .call nnn => formatA 0x2 nnn
  | .seByte x kk => formatXK 0x3 x kk
  | .sneByte x kk => formatXK 0x4 x kk
  | .seReg x y => formatXY 0x5 x y 0x0
  | .ldByte x kk => formatXK 0x6 x kk
  | .addByte x kk => formatXK 0x7 x kk
  | .ldReg x y => formatXY 0x8 x y 0x0
  | .orReg x y => formatXY 0x8 x y 0x1
  | .andReg x y => formatXY 0x8 x y 0x2
  | .xorReg x y => formatXY 0x8 x y 0x3
  | .addReg x y => formatXY 0x8 x y 0x4
  | .subReg x y => formatXY 0x8 x y 0x5
  | .shr x => formatXY 0x8 x 0 0x6
  | .subnReg x y => formatXY 0x8 x y 0x7
  | .shl x => formatXY 0x8 x 0 0xE
  | .sneReg x y => formatXY 0x9 x y 0x0
  | .ldI nnn => formatA 0xA nnn
  | .jpV0 nnn => formatA 0xB nnn
  | .rnd x kk => formatXK 0xC x kk
  | .drw x y n => formatXY 0xD x y (regBits n)
  | .skp x => formatXK 0xE x 0x9E
  | .sknp x => formatXK 0xE x 0xA1
  | .ldVxDT x => formatXK 0xF x 0x07
  | .ldVxK x => formatXK 0xF x 0x0A
  | .ldDTVx x => formatXK 0xF x 0x15
  | .ldSTVx x => formatXK 0xF x 0x18
  | .addIVx x => formatXK 0xF x 0x1E
  | .ldFVx x => formatXK 0xF x 0x29
  | .ldBVx x => formatXK 0xF x 0x33
  | .ldMemVx x => formatXK 0xF x 0x55
  | .ldVxMem x => formatXK 0xF x 0x65
  | .nop => 0xFFFF

/-- An instruction's bytes in memory order (R55). -/
def encodeBytes (i : Instr) : List Byte := bytesOfOpcode (encode i)

/-- The opcode whose low `nbits` bits are `w`'s and whose other bits are 0, numbered as spec/opcode_table.json
numbers them. -/
def tableOpcode (nbits w : Nat) : Word := BitVec.ofNat 16 (w % 2 ^ nbits)

/-- What the decoder reads from a table row's word: the word is laid out in memory order and decoded from its
bytes. No instruction is longer than 16 bits (R70). -/
def decodeTableWord (nbits w : Nat) : Option Instr :=
  if nbits ≤ 16 then
    match decodeBytes (bytesOfOpcode (tableOpcode nbits w)) with
    | .ok (i, _) => some i
    | .error _ => none
  else none

end Sys2Proof
end

