-- ==== Sys2Proof/Machine/Fetch.lean ====
section
/-! DEFINITION. The fetch (spec/40_cycle_and_system.md R100, spec/20_memory.md R55), and the placing of a word where
the fetch reads it. -/

namespace Sys2Proof.Machine

/-- Both opcode bytes lie in memory: `pc0 <= MEM_SIZE - 2` (R100, R223). -/
def fetchInBounds (pc : Word) : Bool := decide (pc.toNat ≤ Config.memSize - 2)

/-- The opcode at an address, the byte at the lower address its high half (R55). -/
def opcodeAt (m : Memory) (a : Nat) : Word := opcodeOfBytes (m.read a) (m.read (a + 1))

/-- An opcode's bytes stored at an address, the high half first (R55). -/
def placeOpcode (m : Memory) (a : Nat) (op : Word) : Memory := m.writeBytes a (bytesOfOpcode op)

end Sys2Proof.Machine
end

