-- ==== Sys2Proof/Machine/Cycle.lean ====
section
/-! DEFINITION. The engine's step (spec/40_cycle_and_system.md R100) and the step of each agent (spec/00_scope.md
R7). -/

namespace Sys2Proof.Machine

/-- The engine's step (R100): none in a halted machine; else the fetch check, the fetch, `pc` advanced by 2, decode
and execute. -/
def engineStep (s : State) : Result :=
  match s.fault with
  | some record => .fault (.halted record)
  | none =>
    if fetchInBounds s.pc then exec (decode (opcodeAt s.mem s.pc.toNat)) (s.setPc (s.pc + 2))
    else takeFault .fetchOutOfBounds s.pc s.pc s

/-- One turn of one agent, or of the caller (R7, R6). -/
def takeTurn (turn : Turn) (s : State) : Result :=
  match turn with
  | .engine => engineStep s
  | .keyDown k => .next (keyDown k s)
  | .keyUp k => .next (keyUp k s)
  | .tick => .next (tick s)
  | .display => .next s
  | .restart rom => restart rom s

/-- The engine moves next: nothing is on the agenda, or its turn heads it. -/
def enginesTurn (s : State) : Bool :=
  match s.agenda with
  | [] => true
  | turn :: _ => turn == .engine

/-- The state once the head of the agenda is taken off. -/
def popTurn (s : State) : State := { s with agenda := s.agenda.tail }

/-- The state with the engine to move next, whatever was to come after it. -/
def giveEngineTurn (s : State) : State :=
  if enginesTurn s then s else { s with agenda := .engine :: s.agenda }

end Sys2Proof.Machine
end

