-- ==== Sys2Proof/Machine/Step.lean ====
section
/-! DEFINITION. One step of the whole system: the turn that the agenda names, the engine's when it names none
(DESIGN CHOICE, log 4, safe). -/

namespace Sys2Proof.Machine

/-- One step: the head of the agenda takes its turn; with nothing on the agenda the engine steps (R7, R100). -/
def step (s : State) : Host.Outcome State Fault Refusal :=
  takeTurn (s.agenda.headD .engine) (popTurn s)

/-- The state in which the next step fetches and runs this opcode (bits above `nbits` zero): the opcode stored at
`pc`, and the engine to move. It stands for a program that `load` put there (log 8). The fault latch and `pc` are
left alone: a machine that is halted, or whose `pc` is out of bounds, fetches nothing. -/
def State.withFetchWord (s : State) (nbits w : Nat) : State :=
  giveEngineTurn { s with mem := placeOpcode s.mem s.pc.toNat (tableOpcode nbits w) }

end Sys2Proof.Machine
end

