-- ==== Sys2Proof/Safety.lean ====
section
/-! DEFINITION. What counts as a safe run, the invariant of the machine, the table of faults, and the words the
statements use to say what a step leaves alone. -/

namespace Sys2Proof.Machine

/-- Nothing has gone wrong: the latch holds no fault (spec/10_state.md R42; a halted state is never a normal end,
spec/60_exceptions.md R222). -/
def State.safe (s : State) : Prop := s.fault = none

/-- `k` steps of the system that end in a state with no fault latched. -/
def runsSafely (k : Nat) (s : State) : Prop := ∃ t, Sys2Proof.core.run k s = .next t ∧ State.safe t

/-- The table of causes of R226, read for the state an instruction executes in (`pc` is the post-fetch value): the
record it must latch, or none. "Last address of the range `>= MEM_SIZE`" is written as the table writes it. -/
def faultOf (i : Instr) (s : State) : Option FaultRecord :=
  match i with
  | .call nnn => if s.sp.val = 16 then some ⟨.stackOverflow, s.pc - 2, zextAddr nnn⟩ else none
  | .ret => if s.sp.val = 0 then some ⟨.stackUnderflow, s.pc - 2, 0⟩ else none
  | .drw _ _ n =>
    if 1 ≤ n.val ∧ Config.memSize ≤ s.i.toNat + n.val - 1 then some ⟨.memOutOfBounds, s.pc - 2, lowestOutOfRange s.i⟩ else none
  | .ldBVx _ =>
    if Config.memSize ≤ s.i.toNat + 2 then some ⟨.memOutOfBounds, s.pc - 2, lowestOutOfRange s.i⟩ else none
  | .ldMemVx x | .ldVxMem x =>
    if Config.memSize ≤ s.i.toNat + x.val then some ⟨.memOutOfBounds, s.pc - 2, lowestOutOfRange s.i⟩ else none
  | .skp x | .sknp x =>
    if 15 < (s.reg x).toNat then some ⟨.keyIndexOutOfRange, s.pc - 2, (s.reg x).setWidth 16⟩ else none
  | .cls | .sys _ | .jp _ | .seByte _ _ | .sneByte _ _ | .seReg _ _ | .ldByte _ _ | .addByte _ _ => none
  | .ldReg _ _ | .orReg _ _ | .andReg _ _ | .xorReg _ _ | .addReg _ _ | .subReg _ _ | .shr _ | .subnReg _ _ => none
  | .shl _ | .sneReg _ _ | .ldI _ | .jpV0 _ | .rnd _ _ | .ldVxDT _ | .ldVxK _ | .ldDTVx _ | .ldSTVx _ => none
  | .addIVx _ | .ldFVx _ | .nop => none

/-- What a latched record says is true of the state it froze (R221, R226): the record is the one the table gives for
the fetch at `pc`, or for the instruction at `pc` in this state. -/
def recordTrue (r : FaultRecord) (s : State) : Prop :=
  if Config.memSize - 2 < s.pc.toNat then r = ⟨.fetchOutOfBounds, s.pc, s.pc⟩
  else faultOf (decode (opcodeAt s.mem s.pc.toNat)) { s with pc := s.pc + 2 } = some r

/-- The invariant: parameters that meet their constraints (R5); memory in canonical form; a framebuffer of WIDTH by
HEIGHT cells (R36); `pc` no larger than any instruction can leave it (R28: "the largest value an instruction can
leave"); every stack slot a value CALL can push (R28, R110); a latched record true. -/
structure State.Inv (s : State) : Prop where
  config : s.config.wf = true
  memory : s.mem.wf = true
  frame : s.fb.shaped s.config.width s.config.height = true
  pcBound : s.pc.toNat ≤ 0x10FE
  slots : ∀ k : Fin 16, s.stack[k].toNat ≤ Config.memSize
  latch : ∀ r, s.fault = some r → recordTrue r s

/-- The next state changed by a function, the other outcomes kept. -/
def mapNext (f : State → State) : Result → Result
  | .next s => .next (f s)
  | .fault r => .fault r
  | .refused r => .refused r

/-- From `s` to `t` nothing differs but registers that `changed` names; every byte of memory reads as before. -/
def ChangesOnlyRegs (changed : Reg → Prop) (s t : State) : Prop :=
  (∀ r, ¬ changed r → t.reg r = s.reg r) ∧ (∀ a, t.mem.read a = s.mem.read a) ∧ t = { s with v := t.v }

/-- From `s` to `t` nothing differs but `pc`; every byte of memory reads as before. -/
def ChangesOnlyPc (s t : State) : Prop :=
  (∀ a, t.mem.read a = s.mem.read a) ∧ t = { s with pc := t.pc }

/-- The instructions that take a byte of memory or put one there when they execute (R50). -/
def reachesMemory : Instr → Bool
  | .drw _ _ _ | .ldBVx _ | .ldMemVx _ | .ldVxMem _ => true
  | .cls | .ret | .sys _ | .jp _ | .call _ | .seByte _ _ | .sneByte _ _ | .seReg _ _ | .ldByte _ _ | .addByte _ _ => false
  | .ldReg _ _ | .orReg _ _ | .andReg _ _ | .xorReg _ _ | .addReg _ _ | .subReg _ _ | .shr _ | .subnReg _ _ => false
  | .shl _ | .sneReg _ _ | .ldI _ | .jpV0 _ | .rnd _ _ | .skp _ | .sknp _ | .ldVxDT _ | .ldVxK _ | .ldDTVx _ => false
  | .ldSTVx _ | .addIVx _ | .ldFVx _ | .nop => false

/-- The byte an instruction stores at an address, if it stores one there (R166, R168): `V[a - I]` of a save, a decimal
digit of LD B,Vx. -/
def storedByte (i : Instr) (s : State) (a : Nat) : Option Byte :=
  match i with
  | .ldMemVx x =>
    if h : s.i.toNat ≤ a ∧ a - s.i.toNat ≤ x.val then some (s.reg ⟨a - s.i.toNat, Nat.lt_of_le_of_lt h.2 x.isLt⟩) else none
  | .ldBVx x =>
    if a = s.i.toNat then some (BitVec.ofNat 8 ((s.reg x).toNat / 100))
    else if a = s.i.toNat + 1 then some (BitVec.ofNat 8 ((s.reg x).toNat / 10 % 10))
    else if a = s.i.toNat + 2 then some (BitVec.ofNat 8 ((s.reg x).toNat % 10))
    else none
  | .cls | .ret | .sys _ | .jp _ | .call _ | .seByte _ _ | .sneByte _ _ | .seReg _ _ | .ldByte _ _ | .addByte _ _ => none
  | .ldReg _ _ | .orReg _ _ | .andReg _ _ | .xorReg _ _ | .addReg _ _ | .subReg _ _ | .shr _ | .subnReg _ _ => none
  | .shl _ | .sneReg _ _ | .ldI _ | .jpV0 _ | .rnd _ _ | .drw _ _ _ | .skp _ | .sknp _ | .ldVxDT _ | .ldVxK _ => none
  | .ldDTVx _ | .ldSTVx _ | .addIVx _ | .ldFVx _ | .ldVxMem _ | .nop => none

/-- The instructions that read the key vector (R38). -/
def readsKeys : Instr → Bool
  | .skp _ | .sknp _ | .ldVxK _ => true
  | .cls | .ret | .sys _ | .jp _ | .call _ | .seByte _ _ | .sneByte _ _ | .seReg _ _ | .ldByte _ _ | .addByte _ _ => false
  | .ldReg _ _ | .orReg _ _ | .andReg _ _ | .xorReg _ _ | .addReg _ _ | .subReg _ _ | .shr _ | .subnReg _ _ => false
  | .shl _ | .sneReg _ _ | .ldI _ | .jpV0 _ | .rnd _ _ | .drw _ _ _ | .ldVxDT _ | .ldDTVx _ => false
  | .ldSTVx _ | .addIVx _ | .ldFVx _ | .ldBVx _ | .ldMemVx _ | .ldVxMem _ | .nop => false

/-- The instruction names register 15 as an operand (R23); a save or restore up to `V[15]` does. -/
def namesVf : Instr → Bool
  | .ldByte x _ | .addByte x _ | .seByte x _ | .sneByte x _ | .rnd x _ => x == 15
  | .seReg x y | .sneReg x y | .ldReg x y | .orReg x y | .andReg x y | .xorReg x y | .addReg x y | .subReg x y => x == 15 || y == 15
  | .subnReg x y | .drw x y _ => x == 15 || y == 15
  | .shr x | .shl x | .skp x | .sknp x | .ldVxDT x | .ldVxK x | .ldDTVx x | .ldSTVx x | .addIVx x => x == 15
  | .ldFVx x | .ldBVx x | .ldMemVx x | .ldVxMem x => x == 15
  | .cls | .ret | .sys _ | .jp _ | .call _ | .ldI _ | .jpV0 _ | .nop => false

/-- The sprite bit that row `row`, column `col` of the screen receives when sprite rows are drawn with their
top-left pixel at row `ay`, column `ax`: bit `7 - c` of row `r` (R182). Places the sprite does not cover get none. -/
def spriteBit (m : Memory) (base count ax ay row col : Nat) : Bool :=
  decide (ay ≤ row) && decide (row < ay + count) && decide (ax ≤ col) && decide (col < ax + 8) &&
    (m.read (base + (row - ay))).getLsbD (7 - (col - ax))

end Sys2Proof.Machine
end

