-- ==== Sys2Proof/Certificates/Slice0/Obligations.lean ====
section
/-! DEFINITION. The statements for the provers. In a statement about `exec` the state `s` is the one after the fetch,
so `s.pc` is the address of the next instruction and `s.pc - 2` the address of this one (spec/00_scope.md R10, log 6).
`t` is the next state. "Covers" names the instructions whose completion the statement concludes. -/

open Sys2Proof Sys2Proof.Machine

/-! ### Encoding (spec/30_encoding.md) -/

/-- Decoding the opcode of a well-formed instruction gives it back, with every operand (R72, R74, R76). The opcode
values are the spec's decision D2. -/
def Obligations.DecodeOfEncodeIsTheInstruction : Prop :=
  ∀ i : Instr, i.wellFormed = true → decode (encode i) = i ∧ decodeBytes (encodeBytes i) = .ok (i, [])

/-- R72: the operand fields sit in the bits the table gives, as unsigned numbers of the opcode. -/
def Obligations.OperandFieldsSitWhereTheTableSays : Prop :=
  ∀ op : Word,
    (fieldX op).val = op.toNat / 256 % 16 ∧ (fieldY op).val = op.toNat / 16 % 16 ∧ (fieldN op).val = op.toNat % 16 ∧
    (fieldKK op).toNat = op.toNat % 256 ∧ (fieldNNN op).toNat = op.toNat % 4096

/-- The twelve groups selected by the high nibble alone (R75, R76 rows 4 to 10 and 20 to 24, R77). The opcode values
are the spec's decisions D2 and D4. -/
def Obligations.HighNibbleAloneSelectsTwelveGroups : Prop :=
  ∀ op : Word,
    (op.toNat / 4096 = 0x1 → decode op = .jp (fieldNNN op)) ∧ (op.toNat / 4096 = 0x2 → decode op = .call (fieldNNN op)) ∧
    (op.toNat / 4096 = 0x3 → decode op = .seByte (fieldX op) (fieldKK op)) ∧
    (op.toNat / 4096 = 0x4 → decode op = .sneByte (fieldX op) (fieldKK op)) ∧
    (op.toNat / 4096 = 0x5 → decode op = .seReg (fieldX op) (fieldY op)) ∧
    (op.toNat / 4096 = 0x6 → decode op = .ldByte (fieldX op) (fieldKK op)) ∧
    (op.toNat / 4096 = 0x7 → decode op = .addByte (fieldX op) (fieldKK op)) ∧
    (op.toNat / 4096 = 0x9 → decode op = .sneReg (fieldX op) (fieldY op)) ∧
    (op.toNat / 4096 = 0xA → decode op = .ldI (fieldNNN op)) ∧ (op.toNat / 4096 = 0xB → decode op = .jpV0 (fieldNNN op)) ∧
    (op.toNat / 4096 = 0xC → decode op = .rnd (fieldX op) (fieldKK op)) ∧
    (op.toNat / 4096 = 0xD → decode op = .drw (fieldX op) (fieldY op) (fieldN op))

/-- The four groups with a second dispatch (R75, R76): group 0 and groups E, F on the low byte, group 8 on the low
nibble. Which key each uses is the spec's decision D3, the values D2. -/
def Obligations.SecondDispatchSelectsTheRest : Prop :=
  ∀ op : Word,
    (op.toNat / 4096 = 0x0 →
      decode op = if op.toNat % 256 = 0xE0 then .cls else if op.toNat % 256 = 0xEE then .ret else .sys (fieldNNN op)) ∧
    (op.toNat / 4096 = 0x8 →
      (op.toNat % 16 = 0x0 → decode op = .ldReg (fieldX op) (fieldY op)) ∧
      (op.toNat % 16 = 0x1 → decode op = .orReg (fieldX op) (fieldY op)) ∧
      (op.toNat % 16 = 0x2 → decode op = .andReg (fieldX op) (fieldY op)) ∧
      (op.toNat % 16 = 0x3 → decode op = .xorReg (fieldX op) (fieldY op)) ∧
      (op.toNat % 16 = 0x4 → decode op = .addReg (fieldX op) (fieldY op)) ∧
      (op.toNat % 16 = 0x5 → decode op = .subReg (fieldX op) (fieldY op)) ∧
      (op.toNat % 16 = 0x6 → decode op = .shr (fieldX op)) ∧
      (op.toNat % 16 = 0x7 → decode op = .subnReg (fieldX op) (fieldY op)) ∧
      (op.toNat % 16 = 0xE → decode op = .shl (fieldX op))) ∧
    (op.toNat / 4096 = 0xE →
      (op.toNat % 256 = 0x9E → decode op = .skp (fieldX op)) ∧ (op.toNat % 256 = 0xA1 → decode op = .sknp (fieldX op))) ∧
    (op.toNat / 4096 = 0xF →
      (op.toNat % 256 = 0x07 → decode op = .ldVxDT (fieldX op)) ∧ (op.toNat % 256 = 0x0A → decode op = .ldVxK (fieldX op)) ∧
      (op.toNat % 256 = 0x15 → decode op = .ldDTVx (fieldX op)) ∧ (op.toNat % 256 = 0x18 → decode op = .ldSTVx (fieldX op)) ∧
      (op.toNat % 256 = 0x1E → decode op = .addIVx (fieldX op)) ∧ (op.toNat % 256 = 0x29 → decode op = .ldFVx (fieldX op)) ∧
      (op.toNat % 256 = 0x33 → decode op = .ldBVx (fieldX op)) ∧ (op.toNat % 256 = 0x55 → decode op = .ldMemVx (fieldX op)) ∧
      (op.toNat % 256 = 0x65 → decode op = .ldVxMem (fieldX op)))

/-- R78: the opcodes that decode to NOP are exactly the listed ones. The opcode values are the spec's decisions D2
and D3. -/
def Obligations.FallbackOpcodesAreExactlyTheListedOnes : Prop :=
  ∀ op : Word, decode op = .nop ↔
    (op.toNat / 4096 = 0x8 ∧ (op.toNat % 16 ∈ [0x8, 0x9, 0xA, 0xB, 0xC, 0xD, 0xF])) ∨
    (op.toNat / 4096 = 0xE ∧ op.toNat % 256 ∉ [0x9E, 0xA1]) ∨
    (op.toNat / 4096 = 0xF ∧ op.toNat % 256 ∉ [0x07, 0x0A, 0x15, 0x18, 0x1E, 0x29, 0x33, 0x55, 0x65])

/-- Every opcode decodes to a well-formed instruction, whose own opcode decodes to the same (R75: a total
function). -/
def Obligations.DecodedInstructionsAreWellFormed : Prop :=
  ∀ op : Word, (decode op).wellFormed = true ∧ decode (encode (decode op)) = decode op

/-- A few words of spec/95_test_vectors.md section 2.1 decode to the instructions listed there. -/
def Obligations.SampleWordsDecodeAsListed : Prop :=
  decode 0x01E0 = .cls ∧ decode 0x0FEE = .ret ∧ decode 0x00E1 = .sys 0x0E1 ∧ decode 0x3A12 = .seByte 0xA 0x12 ∧
  decode 0x5ABF = .seReg 0xA 0xB ∧ decode 0x8AB6 = .shr 0xA ∧ decode 0x8ABF = .nop ∧ decode 0xDAB5 = .drw 0xA 0xB 5 ∧
  decode 0xEAA1 = .sknp 0xA ∧ decode 0xFA33 = .ldBVx 0xA ∧ decode 0xFA75 = .nop

/-! ### The step (spec/40_cycle_and_system.md R100, spec/60_exceptions.md) -/

/-- The engine's step in a machine with no fault latched and both opcode bytes in memory is `exec` of the decoded
opcode, high byte first, in the state with `pc` advanced by 2 and the turn taken off the agenda (R100, R55; byte order
D1; the agenda is the model's, log 4). -/
def Obligations.StepRunsTheDecodedInstruction : Prop :=
  ∀ (s : State) (op : Word), s.fault = none → enginesTurn s = true → s.pc.toNat ≤ 4094 →
    op.toNat = (s.mem.read s.pc.toNat).toNat * 256 + (s.mem.read (s.pc.toNat + 1)).toNat →
    step s = exec (decode op) { s with pc := s.pc + 2, agenda := s.agenda.tail }

/-- A fetch whose two bytes are not both in memory faults: the latch takes cause 1, the address and the address, the
fault port shows 1, and nothing else changes but the agenda (R223, R221; the bound is decision D23, the latch and the
code D12). -/
def Obligations.FetchOutsideMemoryLatchesCauseOne : Prop :=
  ∀ s : State, s.fault = none → enginesTurn s = true → 4094 < s.pc.toNat →
    ∃ t, step s = .next t ∧ t = { s with fault := some ⟨.fetchOutOfBounds, s.pc, s.pc⟩, agenda := s.agenda.tail } ∧
      faultPort t = some 1

/-- R222: while a fault is latched the engine has no step, and the only turn that can clear the latch is the caller's
restart; the collaborators' turns change nothing but the keys and the timers (and the model's agenda, log 4). The
latch itself is decision D12. -/
def Obligations.HaltedMachineIsFrozenUntilReset : Prop :=
  ∀ (s : State) (r : FaultRecord), s.fault = some r →
    (enginesTurn s = true → step s = .fault (.halted r)) ∧
    (∀ t, step s = .next t → (∃ rom rest, s.agenda = .restart rom :: rest) ∨
      t = { s with keys := t.keys, dt := t.dt, st := t.st, agenda := s.agenda.tail })

/-- In a machine with no fault latched every step of the engine answers a next state: no opcode and no operand stops
the model (R100, R75, R221). -/
def Obligations.EngineStepAlwaysAnswersANextState : Prop :=
  ∀ s : State, s.fault = none → enginesTurn s = true → ∃ t, step s = .next t ∧ t.agenda = s.agenda.tail

/-- The table of R226 is complete and exact: executing an instruction latches the record the table gives, or none, and
the fault port shows the record's code, or none (causes 2 to 5; the names and codes are decision D12). -/
def Obligations.ExecutionFaultsAreExactlyTheTable : Prop :=
  ∀ (i : Instr) (s : State), s.fault = none → ∃ t, exec i s = .next t ∧ t.fault = faultOf i s ∧
    (t.fault = none → faultPort t = none) ∧
    ∀ r, t.fault = some r → r.cause ≠ .fetchOutOfBounds ∧ faultPort t = some (match r.cause with
      | .fetchOutOfBounds => 1
      | .stackOverflow => 2
      | .stackUnderflow => 3
      | .memOutOfBounds => 4
      | .keyIndexOutOfRange => 5)

/-- R221 for a whole step: when the engine's step latches a fault, the record names the address of the step and every
element of state but the latch is as before it (and the model's agenda, log 4; decision D12). -/
def Obligations.FaultingStepChangesOnlyTheLatch : Prop :=
  ∀ s t : State, s.fault = none → enginesTurn s = true → step s = .next t → t.fault ≠ none →
    t = { s with fault := t.fault, agenda := s.agenda.tail } ∧ ∀ r, t.fault = some r → r.fpc = s.pc

/-! ### Whole-machine rules over all instructions (spec/10_state.md) -/

/-- R23: the value `VF` takes under each of the six flag writers; no other instruction writes `VF` unless it names
register 15 as its destination; and an instruction that does not name register 15 does the same to everything else
whatever `VF` holds. For `x = 15` the flag values rest on the spec's decision D10 (R24, log 15), and that a faulting DRW
leaves `VF` on D12. "Some cell went from 1 to 0" is read off the framebuffer before and after, in its shape (log 9). -/
def Obligations.FlagRegisterWritersAndValues : Prop :=
  (∀ (i : Instr) (s t : State), s.fault = none → exec i s = .next t →
    (t.fault ≠ none → t.reg vf = s.reg vf) ∧
    (t.fault = none → match i with
    | .addReg x y => t.reg vf = if (s.reg x).toNat + (s.reg y).toNat > 255 then 1 else 0
    | .subReg x y => t.reg vf = if (s.reg x).toNat > (s.reg y).toNat then 1 else 0
    | .shr x => (t.reg vf).toNat = (s.reg x).toNat % 2
    | .subnReg x y => t.reg vf = if (s.reg x).toNat > (s.reg y).toNat then 0 else 1
    | .shl x => (t.reg vf).toNat = (s.reg x).toNat / 128
    | .drw _ _ _ => s.fb.shaped s.config.width s.config.height = true →
      ((∃ row col, s.fb.cell row col = true ∧ t.fb.cell row col = false) → t.reg vf = 1) ∧
      ((¬∃ row col, s.fb.cell row col = true ∧ t.fb.cell row col = false) → t.reg vf = 0)
    | .ldByte x _ | .addByte x _ | .ldReg x _ | .orReg x _ | .andReg x _ | .xorReg x _ | .rnd x _ | .ldVxDT x
    | .ldVxK x | .ldVxMem x => x ≠ 15 → t.reg vf = s.reg vf
    | .cls | .ret | .sys _ | .jp _ | .call _ | .seByte _ _ | .sneByte _ _ | .seReg _ _ | .sneReg _ _ | .ldI _ | .jpV0 _
    | .skp _ | .sknp _ | .ldDTVx _ | .ldSTVx _ | .addIVx _ | .ldFVx _ | .ldBVx _ | .ldMemVx _ | .nop =>
      t.reg vf = s.reg vf)) ∧
  (∀ (i : Instr) (s t : State) (b : Byte), namesVf i = false → exec i s = .next t →
    ∃ u, exec i (s.setReg vf b) = .next u ∧ u = { t with v := u.v } ∧ ∀ r, r ≠ vf → u.reg r = t.reg r)

/-- R25 with R160, R162, R164: `I` is written by LD I,addr (to the 12-bit value), ADD I,Vx (to the sum, where that fits
16 bits) and LD F,Vx (to the glyph's address, for parameters that meet R5's constraints) and by no other instruction.
That save and restore leave it is the spec's decision D16 (log 1). A value `>= MEM_SIZE` may be held, and using it to
address memory faults, for the reading forms by decision D13. -/
def Obligations.IndexPointerWritersAndUse : Prop :=
  ∀ (i : Instr) (s t : State), s.fault = none → exec i s = .next t →
    (∀ nnn, i = .ldI nnn → t.i.toNat = nnn.toNat) ∧
    ((∀ nnn, i ≠ .ldI nnn) → (∀ x, i ≠ .addIVx x) → (∀ x, i ≠ .ldFVx x) → t.i = s.i) ∧
    (4096 ≤ s.i.toNat → reachesMemory i = true → (∀ x y, i ≠ .drw x y 0) →
      ∃ r, t.fault = some r ∧ r.cause = .memOutOfBounds) ∧
    (∀ x, i = .addIVx x → t.fault = none ∧
      (s.i.toNat + (s.reg x).toNat < 65536 → t.i.toNat = s.i.toNat + (s.reg x).toNat)) ∧
    (∀ x, i = .ldFVx x → s.config.wf = true → t.i.toNat = s.config.fontBase.toNat + 5 * ((s.reg x).toNat % 16))

/-- R29, R30: SP is written only by CALL and RET, one at a time and never past 0 or 16; a slot is written only by
CALL, and only the one SP names; RET clears no slot (that last one is the spec's own derivation). -/
def Obligations.StackWritersAndBounds : Prop :=
  ∀ (i : Instr) (s t : State), s.fault = none → exec i s = .next t →
    match i with
    | .call _ =>
      (s.sp.val < 16 → t.sp.val = s.sp.val + 1 ∧ t.fault = none ∧ ∀ k : Fin 16, k.val ≠ s.sp.val → t.stack[k] = s.stack[k]) ∧
      (s.sp.val = 16 → t.sp = s.sp ∧ t.stack = s.stack ∧ ∃ r, t.fault = some r ∧ r.cause = .stackOverflow)
    | .ret =>
      t.stack = s.stack ∧ (0 < s.sp.val → t.sp.val + 1 = s.sp.val ∧ t.fault = none) ∧
      (s.sp.val = 0 → t.sp = s.sp ∧ ∃ r, t.fault = some r ∧ r.cause = .stackUnderflow)
    | _ => t.sp = s.sp ∧ t.stack = s.stack

/-- R34: the engine's only accesses to the timers are the three plain copies; it never decrements them, no
instruction but LD Vx,DT behaves by DT and none by ST; the clock's tick decrements them, and no other collaborator's
turn touches them. That both timers step on one tick is R236 with the spec's decision D18 (log 14); the turns are the
model's (log 4). -/
def Obligations.TimersAreOnlyCopiedByTheEngine : Prop :=
  (∀ (i : Instr) (s t : State), exec i s = .next t →
    (∀ x, i = .ldVxDT x → t.reg x = s.dt) ∧
    (∀ x, i = .ldDTVx x → t.dt = s.reg x) ∧ ((∀ x, i ≠ .ldDTVx x) → t.dt = s.dt) ∧
    (∀ x, i = .ldSTVx x → t.st = s.reg x) ∧ ((∀ x, i ≠ .ldSTVx x) → t.st = s.st)) ∧
  (∀ (i : Instr) (s : State) (b : Byte), (∀ x, i ≠ .ldVxDT x) → (∀ x, i ≠ .ldDTVx x) →
    exec i { s with dt := b } = mapNext (fun t => { t with dt := b }) (exec i s)) ∧
  (∀ (i : Instr) (s : State) (b : Byte), (∀ x, i ≠ .ldSTVx x) →
    exec i { s with st := b } = mapNext (fun t => { t with st := b }) (exec i s)) ∧
  (∀ (x : Reg) (s : State) (b : Byte), exec (.ldSTVx x) { s with st := b } = exec (.ldSTVx x) s) ∧
  (∀ s t : State, step s = .next t → enginesTurn s = false → s.agenda.head? ≠ some .tick →
    (∀ rom, s.agenda.head? ≠ some (.restart rom)) → t.dt = s.dt ∧ t.st = s.st) ∧
  (∀ s : State, (s.dt ≠ 0 → (tick s).dt.toNat + 1 = s.dt.toNat) ∧ (s.st ≠ 0 → (tick s).st.toNat + 1 = s.st.toNat))

/-- R36: only CLS and DRW change the framebuffer, only DRW reads it, and element `row * WIDTH + col` of the port's
linear array is the cell, for a framebuffer in its shape (log 9; the linear order is the spec's own derivation). -/
def Obligations.FramebufferIsMutatedByClearAndDrawAlone : Prop :=
  (∀ (i : Instr) (s t : State), exec i s = .next t → i ≠ .cls → (∀ x y n, i ≠ .drw x y n) → t.fb = s.fb) ∧
  (∀ (i : Instr) (s : State) (f : Frame), i ≠ .cls → (∀ x y n, i ≠ .drw x y n) →
    exec i { s with fb := f } = mapNext (fun t => { t with fb := f }) (exec i s)) ∧
  (∀ (s : State) (f : Frame), exec .cls { s with fb := f } = exec .cls s) ∧
  (∀ (s : State) (row col : Nat), s.fb.shaped s.config.width s.config.height = true →
    row < s.config.height → col < s.config.width →
    (framebufferOut s)[row * s.config.width + col]? = some (s.fb.cell row col))

/-- The engine only reads the key vector, and only SKP, SKNP and LD Vx,K do (R38); the input collaborator's turns write
it, true for key-down and false for key-up (R7, R238), and no turn but theirs and the caller's restart, which resets it
(R44, R250), changes it. The turns and the agenda they are taken from are the model's own (DESIGN CHOICE, log 4), and so
is the restart as one turn (DESIGN CHOICE, log 12). -/
def Obligations.KeysAreReadOnlyToTheEngine : Prop :=
  (∀ (i : Instr) (s t : State), exec i s = .next t → t.keys = s.keys) ∧
  (∀ (i : Instr) (s : State) (w : Vector Bool 16), readsKeys i = false →
    exec i { s with keys := w } = mapNext (fun t => { t with keys := w }) (exec i s)) ∧
  (∀ (s : State) (k j : Fin 16) (rest : List Turn),
    (s.agenda = .keyDown k :: rest → ∃ t, step s = .next t ∧ t.keys[j] = (if j = k then true else s.keys[j])) ∧
    (s.agenda = .keyUp k :: rest → ∃ t, step s = .next t ∧ t.keys[j] = (if j = k then false else s.keys[j]))) ∧
  (∀ s t : State, step s = .next t → (∀ k, s.agenda.head? ≠ some (.keyDown k)) → (∀ k, s.agenda.head? ≠ some (.keyUp k)) →
    (∀ rom, s.agenda.head? ≠ some (.restart rom)) → t.keys = s.keys)

/-- R50: no instruction but DRW, LD B,Vx, LD [I],Vx and LD Vx,[I] touches memory while it executes, and of those four
only the two stores change it. -/
def Obligations.MemoryIsReachedByFourInstructions : Prop :=
  (∀ (i : Instr) (s : State) (m : Memory), reachesMemory i = false →
    exec i { s with mem := m } = mapNext (fun t => { t with mem := m }) (exec i s)) ∧
  (∀ (i : Instr) (s t : State), exec i s = .next t → (∀ x, i ≠ .ldBVx x) → (∀ x, i ≠ .ldMemVx x) → t.mem = s.mem)

/-- R27: where every instruction leaves `pc`. With a fault latched `pc` is the instruction's own address (that row
rests on decision D12); LD Vx,K with no key pressed leaves it there too. -/
def Obligations.ProgramCounterAfterEveryInstruction : Prop :=
  ∀ (i : Instr) (s t : State), s.fault = none → exec i s = .next t →
    (t.fault ≠ none → t.pc = s.pc - 2) ∧
    (t.fault = none →
      match i with
      | .ret => ∀ k : Fin 16, k.val + 1 = s.sp.val → t.pc = s.stack[k]
      | .jp nnn | .call nnn => t.pc.toNat = nnn.toNat
      | .jpV0 nnn => t.pc.toNat = nnn.toNat + (s.reg 0).toNat
      | .seByte x kk => t.pc = if s.reg x = kk then s.pc + 2 else s.pc
      | .sneByte x kk => t.pc = if s.reg x ≠ kk then s.pc + 2 else s.pc
      | .seReg x y => t.pc = if s.reg x = s.reg y then s.pc + 2 else s.pc
      | .sneReg x y => t.pc = if s.reg x ≠ s.reg y then s.pc + 2 else s.pc
      | .skp x => ∀ k : Fin 16, k.val = (s.reg x).toNat → t.pc = if s.keys[k] = true then s.pc + 2 else s.pc
      | .sknp x => ∀ k : Fin 16, k.val = (s.reg x).toNat → t.pc = if s.keys[k] = false then s.pc + 2 else s.pc
      | .ldVxK _ => t.pc = if ∃ k : Fin 16, s.keys[k] = true then s.pc else s.pc - 2
      | _ => t.pc = s.pc)

/-! ### The ALU (spec/42_alu.md) -/

/-- LD Vx,byte, LD Vx,Vy, OR, AND and XOR: the result bit by bit; nothing else changes, `VF` included (R130, R134,
R136, R137, R138). Covers LD Vx,byte, LD Vx,Vy, OR, AND, XOR. -/
def Obligations.LoadsAndLogicWriteOnlyTheirRegister : Prop :=
  ∀ (x y : Reg) (kk : Byte) (s : State),
    (∃ t, exec (.ldByte x kk) s = .next t ∧ ChangesOnlyRegs (· = x) s t ∧ t.reg x = kk) ∧
    (∃ t, exec (.ldReg x y) s = .next t ∧ ChangesOnlyRegs (· = x) s t ∧ t.reg x = s.reg y) ∧
    (∃ t, exec (.orReg x y) s = .next t ∧ ChangesOnlyRegs (· = x) s t ∧
      ∀ b < 8, (t.reg x).getLsbD b = ((s.reg x).getLsbD b || (s.reg y).getLsbD b)) ∧
    (∃ t, exec (.andReg x y) s = .next t ∧ ChangesOnlyRegs (· = x) s t ∧
      ∀ b < 8, (t.reg x).getLsbD b = ((s.reg x).getLsbD b && (s.reg y).getLsbD b)) ∧
    (∃ t, exec (.xorReg x y) s = .next t ∧ ChangesOnlyRegs (· = x) s t ∧
      ∀ b < 8, (t.reg x).getLsbD b = ((s.reg x).getLsbD b ^^ (s.reg y).getLsbD b))

/-- ADD Vx,byte wraps modulo 256 and sets no flag; `x = 15` adds into `VF` like any register (R132, R128).
Covers ADD Vx,byte. -/
def Obligations.AddByteWrapsAndSetsNoFlag : Prop :=
  ∀ (x : Reg) (kk : Byte) (s : State), ∃ t, exec (.addByte x kk) s = .next t ∧ ChangesOnlyRegs (· = x) s t ∧
    (t.reg x).toNat = ((s.reg x).toNat + kk.toNat) % 256

/-- ADD Vx,Vy: the wrapped sum, and `VF` the carry out of bit 7. With `x = 15` the sum is lost and `VF` is the carry
(that clause is decision D10) (R140, R128). Covers ADD Vx,Vy. -/
def Obligations.AddRegistersWrapsAndCarries : Prop :=
  ∀ (x y : Reg) (s : State), ∃ t, exec (.addReg x y) s = .next t ∧ ChangesOnlyRegs (fun r => r = x ∨ r = 15) s t ∧
    (x ≠ 15 → (t.reg x).toNat = ((s.reg x).toNat + (s.reg y).toNat) % 256) ∧
    (t.reg 15).toNat = ((s.reg x).toNat + (s.reg y).toNat) / 256

/-- R129: the conventions of the two subtract instructions, case by case, for a destination other than `VF`
(`x = 15` is the statement FlagIsWrittenLast). Covers SUB Vx,Vy, SUBN Vx,Vy. -/
def Obligations.SubtractConventionsAreNotMirrorImages : Prop :=
  ∀ (x y : Reg) (s : State), x ≠ 15 →
    (∃ t, exec (.subReg x y) s = .next t ∧ ChangesOnlyRegs (fun r => r = x ∨ r = 15) s t ∧
      ((s.reg x).toNat > (s.reg y).toNat → (t.reg x).toNat = (s.reg x).toNat - (s.reg y).toNat ∧ t.reg 15 = 1) ∧
      ((s.reg x).toNat = (s.reg y).toNat → t.reg x = 0 ∧ t.reg 15 = 0) ∧
      ((s.reg x).toNat < (s.reg y).toNat → (t.reg x).toNat = 256 + (s.reg x).toNat - (s.reg y).toNat ∧ t.reg 15 = 0)) ∧
    (∃ t, exec (.subnReg x y) s = .next t ∧ ChangesOnlyRegs (fun r => r = x ∨ r = 15) s t ∧
      ((s.reg x).toNat > (s.reg y).toNat → (t.reg x).toNat = 256 + (s.reg y).toNat - (s.reg x).toNat ∧ t.reg 15 = 0) ∧
      ((s.reg x).toNat = (s.reg y).toNat → t.reg x = 0 ∧ t.reg 15 = 1) ∧
      ((s.reg x).toNat < (s.reg y).toNat → (t.reg x).toNat = (s.reg y).toNat - (s.reg x).toNat ∧ t.reg 15 = 1))

/-- SHR and SHL shift `V[x]` by one place, a zero enters, and `VF` takes the bit shifted out (R144, R148; that SHL
is no rotate is the spec's own derivation). Covers SHR Vx, SHL Vx. -/
def Obligations.ShiftsMoveOneBitIntoTheFlag : Prop :=
  ∀ (x : Reg) (s : State), x ≠ 15 →
    (∃ t, exec (.shr x) s = .next t ∧ ChangesOnlyRegs (fun r => r = x ∨ r = 15) s t ∧
      (t.reg x).toNat = (s.reg x).toNat / 2 ∧ (t.reg 15).toNat = (s.reg x).toNat % 2) ∧
    (∃ t, exec (.shl x) s = .next t ∧ ChangesOnlyRegs (fun r => r = x ∨ r = 15) s t ∧
      (t.reg x).toNat = 2 * (s.reg x).toNat % 256 ∧ (t.reg 15).toNat = (s.reg x).toNat / 128)

/-- R24: a flag-writing ALU instruction whose destination is register 15 leaves the flag there and loses the result;
nothing else changes (decision D10, log 15). Covers SUB, SUBN, SHR, SHL with `x = 15`. -/
def Obligations.FlagIsWrittenLast : Prop :=
  ∀ (y : Reg) (s : State),
    (∃ t, exec (.subReg 15 y) s = .next t ∧ ChangesOnlyRegs (· = 15) s t ∧
      t.reg 15 = if (s.reg 15).toNat > (s.reg y).toNat then 1 else 0) ∧
    (∃ t, exec (.subnReg 15 y) s = .next t ∧ ChangesOnlyRegs (· = 15) s t ∧
      t.reg 15 = if (s.reg 15).toNat > (s.reg y).toNat then 0 else 1) ∧
    (∃ t, exec (.shr 15) s = .next t ∧ ChangesOnlyRegs (· = 15) s t ∧ (t.reg 15).toNat = (s.reg 15).toNat % 2) ∧
    (∃ t, exec (.shl 15) s = .next t ∧ ChangesOnlyRegs (· = 15) s t ∧ (t.reg 15).toNat = (s.reg 15).toNat / 128)

/-- RND: `V[x]` is some byte, the next of the random input, masked by `kk`, so no bit is set that `kk` lacks; the
draw is counted (the counter is the model's, log 3); nothing else changes (R150; the free draw is decision D19). The
statement holds whatever the byte is. Covers RND Vx,byte. -/
def Obligations.RandomByteIsMaskedAndFree : Prop :=
  ∀ (x : Reg) (kk : Byte) (s : State), ∃ t, exec (.rnd x kk) s = .next t ∧
    (∃ draw : Byte, draw = Config.rndByte s.draws ∧ ∀ b < 8, (t.reg x).getLsbD b = (draw.getLsbD b && kk.getLsbD b)) ∧
    (∀ r, r ≠ x → t.reg r = s.reg r) ∧ (∀ a, t.mem.read a = s.mem.read a) ∧
    t = { s with v := t.v, draws := s.draws + 1 }

/-! ### Control flow (spec/41_control_flow.md, spec/40_cycle_and_system.md) -/

/-- SYS and NOP change nothing beyond the fetch's advance of `pc` (R102, R104; SYS as the 35th variant is decision
D5). Covers SYS addr, NOP. -/
def Obligations.SysAndFallbackDoNothing : Prop :=
  ∀ s : State, (∀ nnn, exec (.sys nnn) s = .next s) ∧ exec .nop s = .next s

/-- JP, JP V0 and LD I put an address somewhere and change nothing else: JP's target is `nnn`, JP V0's is
`nnn + V[0]`, not reduced modulo `MEM_SIZE` (R112, R122). Covers JP addr, JP V0,addr. -/
def Obligations.JumpsSetOnlyThePc : Prop :=
  ∀ (nnn : Addr12) (s : State),
    (∃ t, exec (.jp nnn) s = .next t ∧ ChangesOnlyPc s t ∧ t.pc.toNat = nnn.toNat) ∧
    (∃ t, exec (.jpV0 nnn) s = .next t ∧ ChangesOnlyPc s t ∧ t.pc.toNat = nnn.toNat + (s.reg 0).toNat)

/-- CALL with `SP < 16`: the slot SP names takes the address of the next instruction, SP goes up by one, `pc` is the
target, and every other slot, every register and every byte of memory is as before (R114). Covers CALL addr. -/
def Obligations.CallPushesTheNextAddress : Prop :=
  ∀ (nnn : Addr12) (s : State), s.sp.val < 16 → ∃ t, exec (.call nnn) s = .next t ∧
    t.pc.toNat = nnn.toNat ∧ t.sp.val = s.sp.val + 1 ∧
    (∀ k : Fin 16, t.stack[k] = if k.val = s.sp.val then s.pc else s.stack[k]) ∧
    (∀ a, t.mem.read a = s.mem.read a) ∧ t = { s with pc := t.pc, sp := t.sp, stack := t.stack }

/-- RET with `SP > 0`: SP goes down by one, `pc` is the slot it then names, and nothing else changes, the popped
slot included (R110, R30). Covers RET. -/
def Obligations.ReturnPopsIntoThePc : Prop :=
  ∀ (k : Fin 16) (s : State), s.sp.val = k.val + 1 → ∃ t, exec .ret s = .next t ∧
    t.pc = s.stack[k] ∧ t.sp.val = k.val ∧ (∀ a, t.mem.read a = s.mem.read a) ∧ t = { s with pc := t.pc, sp := t.sp }

/-- CALL and RET at their limits latch their faults with the information R224 and R225 name, and leave everything
else, `pc` at the instruction (the record is decision D12). -/
def Obligations.StackLimitsLatchTheirFaults : Prop :=
  ∀ (nnn : Addr12) (s : State),
    (s.sp.val = 16 → ∃ info : Word, info.toNat = nnn.toNat ∧
      exec (.call nnn) s = .next { s with pc := s.pc - 2, fault := some ⟨.stackOverflow, s.pc - 2, info⟩ }) ∧
    (s.sp.val = 0 → exec .ret s = .next { s with pc := s.pc - 2, fault := some ⟨.stackUnderflow, s.pc - 2, 0⟩ })

/-- A RET after a CALL, whatever the called code did to the registers, memory and the screen, comes back to the
instruction after the CALL with SP as it was (R114, R110). -/
def Obligations.ReturnComesBackToTheCall : Prop :=
  ∀ (nnn : Addr12) (s t u : State), s.sp.val < 16 → exec (.call nnn) s = .next t → u.sp = t.sp → u.stack = t.stack →
    ∃ w, exec .ret u = .next w ∧ w.pc = s.pc ∧ w.sp = s.sp ∧ w = { u with pc := w.pc, sp := w.sp }

/-- The four register and immediate skips: `pc` is `pc0 + 4` if the condition holds, else `pc0 + 2`, and nothing
else changes (R116, R117, R118, R120). Covers SE Vx,byte, SNE Vx,byte, SE Vx,Vy, SNE Vx,Vy. -/
def Obligations.SkipsAdvanceByTwoMore : Prop :=
  ∀ (x y : Reg) (kk : Byte) (s : State),
    (∃ t, exec (.seByte x kk) s = .next t ∧ ChangesOnlyPc s t ∧
      t.pc = if (s.reg x).toNat = kk.toNat then s.pc + 2 else s.pc) ∧
    (∃ t, exec (.sneByte x kk) s = .next t ∧ ChangesOnlyPc s t ∧
      t.pc = if (s.reg x).toNat = kk.toNat then s.pc else s.pc + 2) ∧
    (∃ t, exec (.seReg x y) s = .next t ∧ ChangesOnlyPc s t ∧
      t.pc = if (s.reg x).toNat = (s.reg y).toNat then s.pc + 2 else s.pc) ∧
    (∃ t, exec (.sneReg x y) s = .next t ∧ ChangesOnlyPc s t ∧
      t.pc = if (s.reg x).toNat = (s.reg y).toNat then s.pc else s.pc + 2)

/-! ### Index pointer and memory (spec/43_index_memory.md, spec/20_memory.md) -/

/-- LD I, ADD I and LD F write `I` and nothing else: the address, the 16-bit sum (its wrap is decision D15), and, for
parameters that meet their constraints (R5), the glyph address of the low nibble (R160, R162, R164). Covers LD I,addr,
ADD I,Vx, LD F,Vx. -/
def Obligations.IndexPointerInstructions : Prop :=
  ∀ (nnn : Addr12) (x : Reg) (s : State),
    (∃ t, exec (.ldI nnn) s = .next t ∧ t.i.toNat = nnn.toNat ∧ (∀ a, t.mem.read a = s.mem.read a) ∧ t = { s with i := t.i }) ∧
    (∃ t, exec (.addIVx x) s = .next t ∧ t.i.toNat = (s.i.toNat + (s.reg x).toNat) % 65536 ∧
      (∀ a, t.mem.read a = s.mem.read a) ∧ t = { s with i := t.i }) ∧
    (∃ t, exec (.ldFVx x) s = .next t ∧
      (s.config.wf = true → t.i.toNat = s.config.fontBase.toNat + 5 * ((s.reg x).toNat % 16)) ∧
      (∀ a, t.mem.read a = s.mem.read a) ∧ t = { s with i := t.i })

/-- LD B,Vx: in bounds, the three bytes from `I` are the decimal digits of `V[x]`, hundreds first, and every other
byte and everything else is as before (R166). Memory is in canonical form (log 7). Covers LD B,Vx. -/
def Obligations.BcdStoresThreeDigits : Prop :=
  ∀ (x : Reg) (s : State), s.mem.wf = true → s.i.toNat + 2 < 4096 → ∃ t, exec (.ldBVx x) s = .next t ∧
    (t.mem.read s.i.toNat).toNat = (s.reg x).toNat / 100 ∧
    (t.mem.read (s.i.toNat + 1)).toNat = (s.reg x).toNat / 10 % 10 ∧
    (t.mem.read (s.i.toNat + 2)).toNat = (s.reg x).toNat % 10 ∧
    (∀ a, a < s.i.toNat ∨ s.i.toNat + 3 ≤ a → t.mem.read a = s.mem.read a) ∧ t = { s with mem := t.mem }

/-- LD [I],Vx: in bounds, byte `I + k` is `V[k]` for every `k` up to `x`, and every other byte and everything else,
`I` included, is as before (R168; that `I` stays is decision D16). Covers LD [I],Vx. -/
def Obligations.SaveStoresTheRegisters : Prop :=
  ∀ (x : Reg) (s : State), s.mem.wf = true → s.i.toNat + x.val < 4096 → ∃ t, exec (.ldMemVx x) s = .next t ∧
    (∀ k : Reg, k.val ≤ x.val → t.mem.read (s.i.toNat + k.val) = s.reg k) ∧
    (∀ a, a < s.i.toNat ∨ s.i.toNat + x.val < a → t.mem.read a = s.mem.read a) ∧ t = { s with mem := t.mem }

/-- LD Vx,[I]: in bounds, `V[k]` is byte `I + k` for every `k` up to `x`, the registers above `x` and everything
else, `I` included, are as before (R170; that `I` stays is decision D16). Covers LD Vx,[I]. -/
def Obligations.RestoreLoadsTheRegisters : Prop :=
  ∀ (x : Reg) (s : State), s.i.toNat + x.val < 4096 → ∃ t, exec (.ldVxMem x) s = .next t ∧
    ChangesOnlyRegs (fun r => r.val ≤ x.val) s t ∧ ∀ k : Reg, k.val ≤ x.val → t.reg k = s.mem.read (s.i.toNat + k.val)

/-- A restore from where a save wrote brings the saved registers back, whatever the registers held in between
(R168, R170). -/
def Obligations.RestoreAfterSaveBringsTheRegistersBack : Prop :=
  ∀ (x : Reg) (s t u : State), s.mem.wf = true → s.i.toNat + x.val < 4096 → exec (.ldMemVx x) s = .next t →
    u.mem = t.mem → u.i = s.i →
    ∃ w, exec (.ldVxMem x) u = .next w ∧ (∀ k : Reg, k.val ≤ x.val → w.reg k = s.reg k) ∧
      ∀ k : Reg, x.val < k.val → w.reg k = u.reg k

/-- The four instructions that address memory through `I`, out of bounds: the latch takes cause 4 with `max(I,
MEM_SIZE)`, the fault port shows 4, no byte is written, no register changes, `pc` is the instruction's address (R54,
R227; decisions D12 and D13). -/
def Obligations.OutOfRangeAccessHasNoPartialEffect : Prop :=
  ∀ (x y : Reg) (n : Fin 16) (s : State),
    let faulted : State := { s with
      pc := s.pc - 2, fault := some ⟨.memOutOfBounds, s.pc - 2, if s.i.toNat < 4096 then 4096 else s.i⟩ }
    faultPort faulted = some 4 ∧
    (4096 ≤ s.i.toNat + 2 → exec (.ldBVx x) s = .next faulted) ∧
    (4096 ≤ s.i.toNat + x.val → exec (.ldMemVx x) s = .next faulted ∧ exec (.ldVxMem x) s = .next faulted) ∧
    (1 ≤ n.val → 4096 ≤ s.i.toNat + n.val - 1 → exec (.drw x y n) s = .next faulted)

/-- R53: a byte write makes the byte at its address the one written and changes no other; the canonical form is kept
(log 7), and an address outside the address space is never written. -/
def Obligations.WrittenByteIsReadBack : Prop :=
  ∀ (m : Memory) (a : Nat) (b : Byte), m.wf = true →
    (a < 4096 → (m.write a b).read a = b) ∧ (∀ c, c ≠ a → (m.write a b).read c = m.read c) ∧
    (m.write a b).wf = true ∧ (4096 ≤ a → m.write a b = m)

/-- R62: a store is seen by every later fetch. After LD [I],Vx or LD B,Vx has stored, in the state it leaves and in
every state with that memory, the engine's step runs the opcode whose two bytes are the stored ones where the store
reached them, and the bytes from before the store elsewhere (decision D20; byte order D1). -/
def Obligations.StoreIsSeenByTheNextFetch : Prop :=
  ∀ (i : Instr) (s t u : State) (op : Word), ((∃ x, i = .ldMemVx x) ∨ ∃ x, i = .ldBVx x) → s.mem.wf = true →
    s.fault = none → exec i s = .next t → t.fault = none →
    u.mem = t.mem → u.fault = none → enginesTurn u = true → u.pc.toNat ≤ 4094 →
    op.toNat = ((storedByte i s u.pc.toNat).getD (s.mem.read u.pc.toNat)).toNat * 256 +
      ((storedByte i s (u.pc.toNat + 1)).getD (s.mem.read (u.pc.toNat + 1))).toNat →
    step u = exec (decode op) { u with pc := u.pc + 2, agenda := u.agenda.tail }

/-! ### Display (spec/44_display.md) -/

/-- CLS zeroes every cell, leaves a framebuffer of WIDTH by HEIGHT cells (log 9), and changes nothing else, `VF`
included (R180). Covers CLS. -/
def Obligations.ClearZeroesEveryCell : Prop :=
  ∀ s : State, ∃ t, exec .cls s = .next t ∧ t.fb.shaped s.config.width s.config.height = true ∧
    (∀ row col, t.fb.cell row col = false) ∧ (∀ a, t.mem.read a = s.mem.read a) ∧ t = { s with fb := t.fb }

/-- DRW, cell by cell: with the sprite in bounds (or no rows at all) every cell of the framebuffer is the old one XORed
with the sprite bit that falls on it, anchored at (`V[x] mod WIDTH`, `V[y] mod HEIGHT`) and clipped at the right and
bottom edges (the clip policy is decision D11); for `x = 15` or `y = 15` the coordinate is the old `VF`, by decision D10
(R183 (e), log 15). `VF` is 1 if some cell was 1 and is flipped, else 0; nothing else changes (R182, R183). The
framebuffer is taken in its shape (log 9). Covers DRW Vx,Vy,n. -/
def Obligations.DrawXorsTheClippedSprite : Prop :=
  ∀ (x y : Reg) (n : Fin 16) (s : State), s.fb.shaped s.config.width s.config.height = true →
    n.val = 0 ∨ s.i.toNat + n.val - 1 < 4096 →
    let bit := spriteBit s.mem s.i.toNat n.val ((s.reg x).toNat % s.config.width) ((s.reg y).toNat % s.config.height)
    ∃ t, exec (.drw x y n) s = .next t ∧ t.fb.shaped s.config.width s.config.height = true ∧
      (∀ row col, row < s.config.height → col < s.config.width →
        t.fb.cell row col = (s.fb.cell row col ^^ bit row col)) ∧
      (t.reg 15 = 0 ∨ t.reg 15 = 1) ∧
      (t.reg 15 = 1 ↔ ∃ row col, row < s.config.height ∧ col < s.config.width ∧ s.fb.cell row col = true ∧
          bit row col = true) ∧
      (∀ r, r ≠ 15 → t.reg r = s.reg r) ∧ (∀ a, t.mem.read a = s.mem.read a) ∧ t = { s with fb := t.fb, v := t.v }

/-- R181: the raster-line detector on row `py` of a framebuffer in its shape (log 9), column by column. The mask puts
the sprite's bit 7 on column `ax` and drops the columns past the right edge; drawing one sprite row XORs the mask into
the line and leaves every other line; the hit is one exactly if some cell of the line was 1 and is flipped. -/
def Obligations.RasterLineDetector : Prop :=
  ∀ (width height : Nat) (fb : Frame) (sprite : Byte) (ax py : Nat), fb.shaped width height = true → py < height →
    let drawn := drawRows width ax py [sprite] fb
    (∀ col, col < width → (rowMask width sprite ax).cell col =
      (if ax ≤ col ∧ col - ax ≤ 7 then sprite.getLsbD (7 - (col - ax)) else false)) ∧
    (∀ col, col < width → drawn.1.cell py col = (fb.cell py col ^^ (rowMask width sprite ax).cell col)) ∧
    (∀ row col, row ≠ py → drawn.1.cell row col = fb.cell row col) ∧
    (drawn.2 = true ↔ ∃ col, col < width ∧ fb.cell py col = true ∧ (rowMask width sprite ax).cell col = true)

/-- Drawing the same sprite twice at the same place brings the framebuffer back, and the second draw reports a
collision exactly if the first one lit some cell (R183 (i)). The coordinates are not `VF`, which the first draw
writes; the framebuffer is taken in its shape (log 9). -/
def Obligations.DrawingTwiceRestoresTheScreen : Prop :=
  ∀ (x y : Reg) (n : Fin 16) (s t u : State), s.fb.shaped s.config.width s.config.height = true → x ≠ 15 → y ≠ 15 →
    n.val = 0 ∨ s.i.toNat + n.val - 1 < 4096 →
    exec (.drw x y n) s = .next t → exec (.drw x y n) t = .next u →
    u.fb = s.fb ∧ (u.reg 15 = 1 ↔ ∃ row col, s.fb.cell row col = false ∧ t.fb.cell row col = true)

/-! ### Keys and timers (spec/45_keys_timers.md) -/

/-- SKP and SKNP with a key index of 15 or less: skip if that key is, or is not, pressed; nothing else changes
(R200, R202). Covers SKP Vx, SKNP Vx. -/
def Obligations.KeySkipsTestTheNamedKey : Prop :=
  ∀ (x : Reg) (k : Fin 16) (s : State), (s.reg x).toNat = k.val →
    (∃ t, exec (.skp x) s = .next t ∧ ChangesOnlyPc s t ∧ t.pc = if s.keys[k] = true then s.pc + 2 else s.pc) ∧
    (∃ t, exec (.sknp x) s = .next t ∧ ChangesOnlyPc s t ∧ t.pc = if s.keys[k] = true then s.pc else s.pc + 2)

/-- SKP and SKNP with `V[x] > 15` fault with the register's value, and change nothing else (R200, R202; that the index
is not masked is decision D14). -/
def Obligations.KeyIndexAboveFifteenFaults : Prop :=
  ∀ (x : Reg) (s : State), 15 < (s.reg x).toNat → ∃ info : Word, info.toNat = (s.reg x).toNat ∧
    exec (.skp x) s = .next { s with pc := s.pc - 2, fault := some ⟨.keyIndexOutOfRange, s.pc - 2, info⟩ } ∧
    exec (.sknp x) s = .next { s with pc := s.pc - 2, fault := some ⟨.keyIndexOutOfRange, s.pc - 2, info⟩ }

/-- LD Vx,K: with a key down, `V[x]` takes the smallest pressed index and `pc` stays past the instruction; with none
down the whole state is as before but `pc` is back at the instruction (R204). Covers LD Vx,K. -/
def Obligations.WaitForKeyTakesTheLowestKey : Prop :=
  ∀ (x : Reg) (s : State),
    (∀ k : Fin 16, s.keys[k] = true → (∀ j : Fin 16, j < k → s.keys[j] = false) →
      ∃ t, exec (.ldVxK x) s = .next t ∧ ChangesOnlyRegs (· = x) s t ∧ (t.reg x).toNat = k.val) ∧
    ((∀ k : Fin 16, s.keys[k] = false) → exec (.ldVxK x) s = .next { s with pc := s.pc - 2 })

/-- A machine waiting for a key steps to the same state, whole, until the collaborator sets one (R204 (a)): only the
model's agenda moves on (log 4). -/
def Obligations.WaitingStepChangesNothing : Prop :=
  ∀ (x : Reg) (s : State), s.fault = none → enginesTurn s = true → s.pc.toNat ≤ 4094 →
    decode (opcodeAt s.mem s.pc.toNat) = .ldVxK x → (∀ k : Fin 16, s.keys[k] = false) →
    step s = .next { s with agenda := s.agenda.tail }

/-- The three timer copies: LD Vx,DT writes `V[x]` alone, LD DT,Vx writes DT alone, LD ST,Vx writes ST alone (R206,
R208, R210). Covers LD Vx,DT, LD DT,Vx, LD ST,Vx. -/
def Obligations.TimerCopiesArePlain : Prop :=
  ∀ (x : Reg) (s : State),
    (∃ t, exec (.ldVxDT x) s = .next t ∧ ChangesOnlyRegs (· = x) s t ∧ t.reg x = s.dt) ∧
    exec (.ldDTVx x) s = .next { s with dt := s.reg x } ∧ exec (.ldSTVx x) s = .next { s with st := s.reg x }

/-! ### The other agents, reset and boot (spec/00_scope.md R7, spec/60_exceptions.md, spec/70_reset_and_hazards.md) -/

/-- The clock's turn: each timer goes down by one and stops at 0, and nothing else changes but the agenda (R236; that
a timer stops at 0 is the spec's decision D18). -/
def Obligations.TickCountsDownAndStopsAtZero : Prop :=
  ∀ (s : State) (rest : List Turn), s.agenda = .tick :: rest → ∃ t, step s = .next t ∧
    t.dt.toNat = s.dt.toNat - 1 ∧ t.st.toNat = s.st.toNat - 1 ∧ t = { s with dt := t.dt, st := t.st, agenda := rest }

/-- Each collaborator writes its own state alone: the input collaborator the keys, the clock the timers, the display
sink nothing (R7, R38, R239; the agenda is the model's, log 4). -/
def Obligations.CollaboratorsTouchOnlyTheirOwnState : Prop :=
  ∀ (s : State) (rest : List Turn),
    (∀ k, s.agenda = .keyDown k :: rest → ∃ t, step s = .next t ∧ t = { s with keys := t.keys, agenda := rest }) ∧
    (∀ k, s.agenda = .keyUp k :: rest → ∃ t, step s = .next t ∧ t = { s with keys := t.keys, agenda := rest }) ∧
    (s.agenda = .tick :: rest → ∃ t, step s = .next t ∧ t = { s with dt := t.dt, st := t.st, agenda := rest }) ∧
    (s.agenda = .display :: rest → step s = .next { s with agenda := rest })

/-- R44, R250: reset leaves every register, slot, timer, cell, key and byte of memory zero, `pc` at ROM_START and no
fault latched, whatever the parameters. The fixed reset state is that of the default parameters, which are those of R5:
ROM_START 0x200 (decision D7), a screen of 64 by 32 (D6), the font at 0 (D8). -/
def Obligations.ResetZeroesTheMachine : Prop :=
  (∀ c : Config, let s := State.resetWith c
    (∀ r, s.reg r = 0) ∧ s.i = 0 ∧ s.pc = c.romStart ∧ s.sp.val = 0 ∧ (∀ k : Fin 16, s.stack[k] = 0) ∧ s.dt = 0 ∧
    s.st = 0 ∧ s.fb.shaped c.width c.height = true ∧ (∀ row col, s.fb.cell row col = false) ∧
    (∀ k : Fin 16, s.keys[k] = false) ∧ (∀ a, s.mem.read a = 0) ∧ s.fault = none ∧ s.config = c) ∧
  State.reset = State.resetWith Config.default ∧ Config.default.wf = true ∧ Config.default.romStart = 0x200 ∧
  Config.default.width = 64 ∧ Config.default.height = 32 ∧ Config.default.fontBase = 0x000

/-- R254, R255: with parameters that meet their constraints a ROM that fits is loaded: its bytes from ROM_START on, the
80 font bytes from FONT_BASE on, and zero everywhere else; `pc` and all else are as reset left them. One that does not
fit fails and gives no state. The default font is R255's table, given here glyph by glyph as five bytes in one number,
top row first (decision D8); the default addresses are D7 and D8. -/
def Obligations.BootLoadsTheRomAndTheFont : Prop :=
  (∀ (c : Config) (rom : List Byte), c.wf = true →
    (4096 < c.romStart.toNat + rom.length → boot c rom = .error .romTooLarge) ∧
    (c.romStart.toNat + rom.length ≤ 4096 → ∃ s, boot c rom = .ok s ∧
      (∀ k b, rom[k]? = some b → s.mem.read (c.romStart.toNat + k) = b) ∧
      (∀ k : Fin 80, s.mem.read (c.fontBase.toNat + k.val) = c.fontset[k]) ∧
      (∀ a, a < c.fontBase.toNat ∨ c.fontBase.toNat + 80 ≤ a →
        a < c.romStart.toNat ∨ c.romStart.toNat + rom.length ≤ a → s.mem.read a = 0) ∧
      s = { State.resetWith c with mem := s.mem })) ∧
  (∀ k : Fin 80, Config.default.fontset[k].toNat =
    ([0xF0909090F0, 0x2060202070, 0xF010F080F0, 0xF010F010F0, 0x9090F01010, 0xF080F010F0, 0xF080F090F0, 0xF010204040,
      0xF090F090F0, 0xF090F010F0, 0xF090F09090, 0xE090E090E0, 0xF0808080F0, 0xE0909090E0, 0xF080F080F0,
      0xF080F08080] : List Nat).getD (k.val / 5) 0 / 256 ^ (4 - k.val % 5) % 256)

/-- A restart from any state, halted or not, is the boot of a new machine with the same parameters, and with the coming
turns and the random input going on; a ROM that does not fit is refused (R250, R254; decision D21, log 12, log 13). -/
def Obligations.RestartIsANewBoot : Prop :=
  ∀ (s : State) (rom : List Byte) (rest : List Turn), s.config.wf = true → s.agenda = .restart rom :: rest →
    (s.config.romStart.toNat + rom.length ≤ 4096 →
      ∃ b t, boot s.config rom = .ok b ∧ step s = .next t ∧ t = { b with draws := s.draws, agenda := rest }) ∧
    (4096 < s.config.romStart.toNat + rom.length → step s = .refused (.romTooLarge rom.length))

/-! ### Invariants -/

/-- Every step of every agent keeps the invariant: parameters that meet their constraints (R5), memory in canonical
form, a framebuffer in its shape (R36), `pc` at most 0x10FE (R28), every stack slot at most MEM_SIZE (R110), and a
latched record that is the one the table gives for the fetch at `pc` or for the instruction at `pc` in that very state
(R221, R226; decision D12). No step changes the parameters (log 2). -/
def Obligations.EveryStepKeepsTheInvariant : Prop :=
  ∀ s t : State, s.Inv → step s = .next t → t.Inv ∧ t.config = s.config

/-- The state after reset has the invariant, and no record is latched, for all parameters that meet their constraints,
the default ones among them. -/
def Obligations.ResetHasTheInvariant : Prop :=
  (∀ c : Config, c.wf = true → (State.resetWith c).Inv ∧ (State.resetWith c).fault = none) ∧
  State.reset.Inv ∧ State.reset.fault = none

/-- Every booted machine has the invariant, with no fault latched. That the engine moves first after a boot is the
model's own choice: reset leaves the agenda empty (DESIGN CHOICE, log 4), where the spec lets any agent act first. -/
def Obligations.EveryBootHasTheInvariant : Prop :=
  ∀ (c : Config) (rom : List Byte) (s : State), c.wf = true → boot c rom = .ok s →
    s.Inv ∧ s.safe ∧ enginesTurn s = true
end

