-- ==== Sys2Proof/Laws/Memory.lean ====
section
/-! SUPPORT. Memory: reading after writing, and the canonical form that every operation keeps. -/

namespace Sys2Proof.Machine

@[simp] theorem Memory.read_nil (a : Nat) : Memory.read [] a = Memory.unlisted := rfl

/-- An address below everything listed reads as unlisted. -/
theorem Memory.read_of_lt {m : Memory} {lo a : Nat} (h : Memory.wfFrom lo m = true) (ha : a < lo) :
    m.read a = Memory.unlisted := by
  induction m generalizing lo with
  | nil => rfl
  | cons cell rest ih =>
    obtain ⟨k, c⟩ := cell
    simp only [Memory.wfFrom, Bool.and_eq_true, decide_eq_true_eq] at h
    have hk : a ≠ k := by omega
    simp only [Memory.read, if_neg hk]
    exact ih h.2 (by omega)

/-- The canonical form from a later address is one from an earlier address. -/
theorem Memory.wfFrom_mono {m : Memory} {lo lo' : Nat} (h : Memory.wfFrom lo m = true) (hl : lo' ≤ lo) :
    Memory.wfFrom lo' m = true := by
  cases m with
  | nil => rfl
  | cons cell rest =>
    obtain ⟨k, c⟩ := cell
    simp only [Memory.wfFrom, Bool.and_eq_true, decide_eq_true_eq] at h ⊢
    exact ⟨⟨⟨by omega, h.1.1.2⟩, h.1.2⟩, h.2⟩

/-- An address outside memory reads as unlisted. -/
theorem Memory.read_of_ge {m : Memory} {lo a : Nat} (h : Memory.wfFrom lo m = true) (ha : Config.memSize ≤ a) :
    m.read a = Memory.unlisted := by
  induction m generalizing lo with
  | nil => rfl
  | cons cell rest ih =>
    obtain ⟨k, c⟩ := cell
    simp only [Memory.wfFrom, Bool.and_eq_true, decide_eq_true_eq] at h
    have hk : a ≠ k := by omega
    simp only [Memory.read, if_neg hk]
    exact ih h.2

theorem Memory.read_insert_of_ne (m : Memory) {a c : Nat} (b : Byte) (h : c ≠ a) :
    (m.insert a b).read c = m.read c := by
  induction m with
  | nil => by_cases hb : b = Memory.unlisted <;> simp [Memory.insert, Memory.read, hb, h]
  | cons cell rest ih =>
    obtain ⟨k, d⟩ := cell
    by_cases h1 : a < k
    · by_cases hb : b = Memory.unlisted <;> simp [Memory.insert, Memory.read, h1, hb, h]
    · by_cases h2 : a = k
      · subst h2
        by_cases hb : b = Memory.unlisted <;> simp [Memory.insert, Memory.read, hb, h]
      · by_cases h3 : c = k <;> simp [Memory.insert, Memory.read, h1, h2, h3, ih]

theorem Memory.read_insert_same {m : Memory} {lo : Nat} (hm : Memory.wfFrom lo m = true) (a : Nat) (b : Byte) :
    (m.insert a b).read a = b := by
  induction m generalizing lo with
  | nil => by_cases hb : b = Memory.unlisted <;> simp [Memory.insert, Memory.read, hb]
  | cons cell rest ih =>
    obtain ⟨k, d⟩ := cell
    simp only [Memory.wfFrom, Bool.and_eq_true, decide_eq_true_eq] at hm
    by_cases h1 : a < k
    · have hr := Memory.read_of_lt (lo := k + 1) hm.2 (a := a) (by omega)
      have hk : a ≠ k := by omega
      by_cases hb : b = Memory.unlisted <;> simp [Memory.insert, Memory.read, h1, hb, hk, hr]
    · by_cases h2 : a = k
      · subst h2
        have hr := Memory.read_of_lt (lo := a + 1) hm.2 (a := a) (by omega)
        by_cases hb : b = Memory.unlisted <;> simp [Memory.insert, Memory.read, hb, hr]
      · simp [Memory.insert, Memory.read, h1, h2, ih hm.2]

theorem Memory.wfFrom_insert {m : Memory} {lo a : Nat} (b : Byte) (hm : Memory.wfFrom lo m = true) (hlo : lo ≤ a)
    (ha : a < Config.memSize) : Memory.wfFrom lo (m.insert a b) = true := by
  induction m generalizing lo with
  | nil => by_cases hb : b = Memory.unlisted <;> simp [Memory.insert, Memory.wfFrom, hb, hlo, ha]
  | cons cell rest ih =>
    obtain ⟨k, d⟩ := cell
    have hm' := hm
    simp only [Memory.wfFrom, Bool.and_eq_true, decide_eq_true_eq] at hm
    obtain ⟨⟨⟨hk, hk'⟩, hd⟩, hr⟩ := hm
    by_cases h1 : a < k
    · by_cases hb : b = Memory.unlisted
      · simpa [Memory.insert, h1, hb] using hm'
      · have hak : a + 1 ≤ k := h1
        simp [Memory.insert, Memory.wfFrom, h1, hb, hlo, ha, hk', hd, hr, hak]
    · by_cases h2 : a = k
      · subst h2
        by_cases hb : b = Memory.unlisted
        · simpa [Memory.insert, hb] using Memory.wfFrom_mono hr (by omega)
        · simp [Memory.insert, Memory.wfFrom, hb, hlo, ha, hr]
      · have := ih hr (by omega)
        simp [Memory.insert, Memory.wfFrom, h1, h2, hk, hk', hd, this]

/-! ### one byte -/

theorem Memory.read_write_of_ne (m : Memory) {a c : Nat} (b : Byte) (h : c ≠ a) :
    (m.write a b).read c = m.read c := by
  unfold Memory.write
  split
  · exact Memory.read_insert_of_ne m b h
  · rfl

theorem Memory.read_write_same {m : Memory} (hm : m.wf = true) {a : Nat} (ha : a < Config.memSize) (b : Byte) :
    (m.write a b).read a = b := by
  simp only [Memory.write, if_pos ha]
  exact Memory.read_insert_same hm a b

theorem Memory.wf_write {m : Memory} (hm : m.wf = true) (a : Nat) (b : Byte) : (m.write a b).wf = true := by
  unfold Memory.write
  split
  · exact Memory.wfFrom_insert b hm (Nat.zero_le a) ‹_›
  · exact hm

theorem Memory.write_of_ge (m : Memory) {a : Nat} (b : Byte) (ha : Config.memSize ≤ a) : m.write a b = m := by
  simp [Memory.write, Nat.not_lt.mpr ha]

theorem Memory.wf_nil : Memory.wf [] = true := rfl

/-! ### sequences of bytes -/

theorem Memory.wf_writeBytes {m : Memory} (hm : m.wf = true) (a : Nat) (bs : List Byte) :
    (m.writeBytes a bs).wf = true := by
  induction bs generalizing m a with
  | nil => exact hm
  | cons b bs ih => exact ih (Memory.wf_write hm a b) (a + 1)

/-- A sequence written leaves every address outside it alone. -/
theorem Memory.read_writeBytes_of_outside (m : Memory) {a c : Nat} (bs : List Byte)
    (h : c < a ∨ a + bs.length ≤ c) : (m.writeBytes a bs).read c = m.read c := by
  induction bs generalizing m a with
  | nil => rfl
  | cons b bs ih =>
    simp only [List.length_cons] at h
    rw [Memory.writeBytes, ih _ (by omega), Memory.read_write_of_ne _ _ (by omega)]

/-- A sequence written in bounds is read back byte by byte. -/
theorem Memory.read_writeBytes_inside {m : Memory} (hm : m.wf = true) {a : Nat} (bs : List Byte)
    (ha : a + bs.length ≤ Config.memSize) (k : Nat) (b : Byte) (hk : bs[k]? = some b) :
    (m.writeBytes a bs).read (a + k) = b := by
  induction bs generalizing m a k with
  | nil => simp at hk
  | cons c bs ih =>
    simp only [List.length_cons] at ha
    cases k with
    | zero =>
      obtain rfl : c = b := by simpa using hk
      rw [Memory.writeBytes, Nat.add_zero, Memory.read_writeBytes_of_outside _ _ (by omega)]
      exact Memory.read_write_same hm (by omega) c
    | succ k =>
      have := ih (Memory.wf_write hm a c) (a := a + 1) (by omega) k (by simpa using hk)
      rw [Memory.writeBytes]
      rwa [show a + (k + 1) = a + 1 + k by omega]

@[simp] theorem Memory.length_readBytes (m : Memory) (a n : Nat) : (m.readBytes a n).length = n := by
  induction n generalizing a with
  | zero => rfl
  | succ n ih => simp [Memory.readBytes, ih]

theorem Memory.getElem?_readBytes (m : Memory) (a n k : Nat) (hk : k < n) :
    (m.readBytes a n)[k]? = some (m.read (a + k)) := by
  induction n generalizing a k with
  | zero => omega
  | succ n ih =>
    cases k with
    | zero => simp [Memory.readBytes]
    | succ k => simp [Memory.readBytes, ih (a + 1) k (by omega), show a + 1 + k = a + (k + 1) by omega]

end Sys2Proof.Machine
end

