-- ==== Sys2Proof/Laws/State.lean ====
section
/-! SUPPORT. One lemma per field of State per named update, what a register reads as after a write, and the parameters'
constraints in numbers. -/

namespace Sys2Proof

/-- The constraints of R5, in numbers. -/
theorem Config.wf_iff (c : Config) :
    c.wf = true ↔ c.fontBase.toNat + 80 ≤ c.romStart.toNat ∧ c.romStart.toNat < 4096 ∧ 8 ≤ c.width ∧ 1 ≤ c.height := by
  simp [Config.wf, and_assoc]

end Sys2Proof

namespace Sys2Proof.Machine

/-! ### `V[r] <- b` -/

@[simp] theorem setReg_v (s : State) (r : Reg) (b : Byte) : (s.setReg r b).v = s.v.set r b := rfl
@[simp] theorem setReg_i (s : State) (r : Reg) (b : Byte) : (s.setReg r b).i = s.i := rfl
@[simp] theorem setReg_pc (s : State) (r : Reg) (b : Byte) : (s.setReg r b).pc = s.pc := rfl
@[simp] theorem setReg_sp (s : State) (r : Reg) (b : Byte) : (s.setReg r b).sp = s.sp := rfl
@[simp] theorem setReg_stack (s : State) (r : Reg) (b : Byte) : (s.setReg r b).stack = s.stack := rfl
@[simp] theorem setReg_dt (s : State) (r : Reg) (b : Byte) : (s.setReg r b).dt = s.dt := rfl
@[simp] theorem setReg_st (s : State) (r : Reg) (b : Byte) : (s.setReg r b).st = s.st := rfl
@[simp] theorem setReg_fb (s : State) (r : Reg) (b : Byte) : (s.setReg r b).fb = s.fb := rfl
@[simp] theorem setReg_keys (s : State) (r : Reg) (b : Byte) : (s.setReg r b).keys = s.keys := rfl
@[simp] theorem setReg_mem (s : State) (r : Reg) (b : Byte) : (s.setReg r b).mem = s.mem := rfl
@[simp] theorem setReg_fault (s : State) (r : Reg) (b : Byte) : (s.setReg r b).fault = s.fault := rfl
@[simp] theorem setReg_draws (s : State) (r : Reg) (b : Byte) : (s.setReg r b).draws = s.draws := rfl
@[simp] theorem setReg_agenda (s : State) (r : Reg) (b : Byte) : (s.setReg r b).agenda = s.agenda := rfl
@[simp] theorem setReg_config (s : State) (r : Reg) (b : Byte) : (s.setReg r b).config = s.config := rfl

/-! ### result, then flag -/

@[simp] theorem setResultThenFlag_v (s : State) (x : Reg) (b f : Byte) : (s.setResultThenFlag x b f).v = (s.v.set x b).set vf f := rfl
@[simp] theorem setResultThenFlag_i (s : State) (x : Reg) (b f : Byte) : (s.setResultThenFlag x b f).i = s.i := rfl
@[simp] theorem setResultThenFlag_pc (s : State) (x : Reg) (b f : Byte) : (s.setResultThenFlag x b f).pc = s.pc := rfl
@[simp] theorem setResultThenFlag_sp (s : State) (x : Reg) (b f : Byte) : (s.setResultThenFlag x b f).sp = s.sp := rfl
@[simp] theorem setResultThenFlag_stack (s : State) (x : Reg) (b f : Byte) : (s.setResultThenFlag x b f).stack = s.stack := rfl
@[simp] theorem setResultThenFlag_dt (s : State) (x : Reg) (b f : Byte) : (s.setResultThenFlag x b f).dt = s.dt := rfl
@[simp] theorem setResultThenFlag_st (s : State) (x : Reg) (b f : Byte) : (s.setResultThenFlag x b f).st = s.st := rfl
@[simp] theorem setResultThenFlag_fb (s : State) (x : Reg) (b f : Byte) : (s.setResultThenFlag x b f).fb = s.fb := rfl
@[simp] theorem setResultThenFlag_keys (s : State) (x : Reg) (b f : Byte) : (s.setResultThenFlag x b f).keys = s.keys := rfl
@[simp] theorem setResultThenFlag_mem (s : State) (x : Reg) (b f : Byte) : (s.setResultThenFlag x b f).mem = s.mem := rfl
@[simp] theorem setResultThenFlag_fault (s : State) (x : Reg) (b f : Byte) : (s.setResultThenFlag x b f).fault = s.fault := rfl
@[simp] theorem setResultThenFlag_draws (s : State) (x : Reg) (b f : Byte) : (s.setResultThenFlag x b f).draws = s.draws := rfl
@[simp] theorem setResultThenFlag_agenda (s : State) (x : Reg) (b f : Byte) : (s.setResultThenFlag x b f).agenda = s.agenda := rfl
@[simp] theorem setResultThenFlag_config (s : State) (x : Reg) (b f : Byte) : (s.setResultThenFlag x b f).config = s.config := rfl

/-! ### `pc <- target` -/

@[simp] theorem setPc_v (s : State) (a : Word) : (s.setPc a).v = s.v := rfl
@[simp] theorem setPc_i (s : State) (a : Word) : (s.setPc a).i = s.i := rfl
@[simp] theorem setPc_pc (s : State) (a : Word) : (s.setPc a).pc = a := rfl
@[simp] theorem setPc_sp (s : State) (a : Word) : (s.setPc a).sp = s.sp := rfl
@[simp] theorem setPc_stack (s : State) (a : Word) : (s.setPc a).stack = s.stack := rfl
@[simp] theorem setPc_dt (s : State) (a : Word) : (s.setPc a).dt = s.dt := rfl
@[simp] theorem setPc_st (s : State) (a : Word) : (s.setPc a).st = s.st := rfl
@[simp] theorem setPc_fb (s : State) (a : Word) : (s.setPc a).fb = s.fb := rfl
@[simp] theorem setPc_keys (s : State) (a : Word) : (s.setPc a).keys = s.keys := rfl
@[simp] theorem setPc_mem (s : State) (a : Word) : (s.setPc a).mem = s.mem := rfl
@[simp] theorem setPc_fault (s : State) (a : Word) : (s.setPc a).fault = s.fault := rfl
@[simp] theorem setPc_draws (s : State) (a : Word) : (s.setPc a).draws = s.draws := rfl
@[simp] theorem setPc_agenda (s : State) (a : Word) : (s.setPc a).agenda = s.agenda := rfl
@[simp] theorem setPc_config (s : State) (a : Word) : (s.setPc a).config = s.config := rfl

/-! ### `I <- a` -/

@[simp] theorem setI_v (s : State) (a : Word) : (s.setI a).v = s.v := rfl
@[simp] theorem setI_i (s : State) (a : Word) : (s.setI a).i = a := rfl
@[simp] theorem setI_pc (s : State) (a : Word) : (s.setI a).pc = s.pc := rfl
@[simp] theorem setI_sp (s : State) (a : Word) : (s.setI a).sp = s.sp := rfl
@[simp] theorem setI_stack (s : State) (a : Word) : (s.setI a).stack = s.stack := rfl
@[simp] theorem setI_dt (s : State) (a : Word) : (s.setI a).dt = s.dt := rfl
@[simp] theorem setI_st (s : State) (a : Word) : (s.setI a).st = s.st := rfl
@[simp] theorem setI_fb (s : State) (a : Word) : (s.setI a).fb = s.fb := rfl
@[simp] theorem setI_keys (s : State) (a : Word) : (s.setI a).keys = s.keys := rfl
@[simp] theorem setI_mem (s : State) (a : Word) : (s.setI a).mem = s.mem := rfl
@[simp] theorem setI_fault (s : State) (a : Word) : (s.setI a).fault = s.fault := rfl
@[simp] theorem setI_draws (s : State) (a : Word) : (s.setI a).draws = s.draws := rfl
@[simp] theorem setI_agenda (s : State) (a : Word) : (s.setI a).agenda = s.agenda := rfl
@[simp] theorem setI_config (s : State) (a : Word) : (s.setI a).config = s.config := rfl

/-! ### push and pop -/

@[simp] theorem push_v (s : State) (h : s.sp.val < Config.stackDepth) (a : Word) : (s.push h a).v = s.v := rfl
@[simp] theorem push_i (s : State) (h : s.sp.val < Config.stackDepth) (a : Word) : (s.push h a).i = s.i := rfl
@[simp] theorem push_pc (s : State) (h : s.sp.val < Config.stackDepth) (a : Word) : (s.push h a).pc = s.pc := rfl
@[simp] theorem push_sp (s : State) (h : s.sp.val < Config.stackDepth) (a : Word) : (s.push h a).sp = ⟨s.sp.val + 1, Nat.succ_lt_succ h⟩ := rfl
@[simp] theorem push_stack (s : State) (h : s.sp.val < Config.stackDepth) (a : Word) : (s.push h a).stack = s.stack.set s.sp.val a h := rfl
@[simp] theorem push_dt (s : State) (h : s.sp.val < Config.stackDepth) (a : Word) : (s.push h a).dt = s.dt := rfl
@[simp] theorem push_st (s : State) (h : s.sp.val < Config.stackDepth) (a : Word) : (s.push h a).st = s.st := rfl
@[simp] theorem push_fb (s : State) (h : s.sp.val < Config.stackDepth) (a : Word) : (s.push h a).fb = s.fb := rfl
@[simp] theorem push_keys (s : State) (h : s.sp.val < Config.stackDepth) (a : Word) : (s.push h a).keys = s.keys := rfl
@[simp] theorem push_mem (s : State) (h : s.sp.val < Config.stackDepth) (a : Word) : (s.push h a).mem = s.mem := rfl
@[simp] theorem push_fault (s : State) (h : s.sp.val < Config.stackDepth) (a : Word) : (s.push h a).fault = s.fault := rfl
@[simp] theorem push_draws (s : State) (h : s.sp.val < Config.stackDepth) (a : Word) : (s.push h a).draws = s.draws := rfl
@[simp] theorem push_agenda (s : State) (h : s.sp.val < Config.stackDepth) (a : Word) : (s.push h a).agenda = s.agenda := rfl
@[simp] theorem push_config (s : State) (h : s.sp.val < Config.stackDepth) (a : Word) : (s.push h a).config = s.config := rfl
@[simp] theorem pop_snd_v (s : State) (h : 0 < s.sp.val) : ((s.pop h).2).v = s.v := rfl
@[simp] theorem pop_snd_i (s : State) (h : 0 < s.sp.val) : ((s.pop h).2).i = s.i := rfl
@[simp] theorem pop_snd_pc (s : State) (h : 0 < s.sp.val) : ((s.pop h).2).pc = s.pc := rfl
@[simp] theorem pop_snd_sp (s : State) (h : 0 < s.sp.val) : ((s.pop h).2).sp = ⟨s.sp.val - 1, Nat.lt_of_le_of_lt (Nat.sub_le _ _) s.sp.isLt⟩ := rfl
@[simp] theorem pop_snd_stack (s : State) (h : 0 < s.sp.val) : ((s.pop h).2).stack = s.stack := rfl
@[simp] theorem pop_snd_dt (s : State) (h : 0 < s.sp.val) : ((s.pop h).2).dt = s.dt := rfl
@[simp] theorem pop_snd_st (s : State) (h : 0 < s.sp.val) : ((s.pop h).2).st = s.st := rfl
@[simp] theorem pop_snd_fb (s : State) (h : 0 < s.sp.val) : ((s.pop h).2).fb = s.fb := rfl
@[simp] theorem pop_snd_keys (s : State) (h : 0 < s.sp.val) : ((s.pop h).2).keys = s.keys := rfl
@[simp] theorem pop_snd_mem (s : State) (h : 0 < s.sp.val) : ((s.pop h).2).mem = s.mem := rfl
@[simp] theorem pop_snd_fault (s : State) (h : 0 < s.sp.val) : ((s.pop h).2).fault = s.fault := rfl
@[simp] theorem pop_snd_draws (s : State) (h : 0 < s.sp.val) : ((s.pop h).2).draws = s.draws := rfl
@[simp] theorem pop_snd_agenda (s : State) (h : 0 < s.sp.val) : ((s.pop h).2).agenda = s.agenda := rfl
@[simp] theorem pop_snd_config (s : State) (h : 0 < s.sp.val) : ((s.pop h).2).config = s.config := rfl

/-! ### the agents -/

@[simp] theorem tick_v (s : State) : (tick s).v = s.v := rfl
@[simp] theorem tick_i (s : State) : (tick s).i = s.i := rfl
@[simp] theorem tick_pc (s : State) : (tick s).pc = s.pc := rfl
@[simp] theorem tick_sp (s : State) : (tick s).sp = s.sp := rfl
@[simp] theorem tick_stack (s : State) : (tick s).stack = s.stack := rfl
@[simp] theorem tick_dt (s : State) : (tick s).dt = countDown s.dt := rfl
@[simp] theorem tick_st (s : State) : (tick s).st = countDown s.st := rfl
@[simp] theorem tick_fb (s : State) : (tick s).fb = s.fb := rfl
@[simp] theorem tick_keys (s : State) : (tick s).keys = s.keys := rfl
@[simp] theorem tick_mem (s : State) : (tick s).mem = s.mem := rfl
@[simp] theorem tick_fault (s : State) : (tick s).fault = s.fault := rfl
@[simp] theorem tick_draws (s : State) : (tick s).draws = s.draws := rfl
@[simp] theorem tick_agenda (s : State) : (tick s).agenda = s.agenda := rfl
@[simp] theorem tick_config (s : State) : (tick s).config = s.config := rfl
@[simp] theorem setKey_v (s : State) (k : Fin 16) (p : Bool) : (setKey k p s).v = s.v := rfl
@[simp] theorem setKey_i (s : State) (k : Fin 16) (p : Bool) : (setKey k p s).i = s.i := rfl
@[simp] theorem setKey_pc (s : State) (k : Fin 16) (p : Bool) : (setKey k p s).pc = s.pc := rfl
@[simp] theorem setKey_sp (s : State) (k : Fin 16) (p : Bool) : (setKey k p s).sp = s.sp := rfl
@[simp] theorem setKey_stack (s : State) (k : Fin 16) (p : Bool) : (setKey k p s).stack = s.stack := rfl
@[simp] theorem setKey_dt (s : State) (k : Fin 16) (p : Bool) : (setKey k p s).dt = s.dt := rfl
@[simp] theorem setKey_st (s : State) (k : Fin 16) (p : Bool) : (setKey k p s).st = s.st := rfl
@[simp] theorem setKey_fb (s : State) (k : Fin 16) (p : Bool) : (setKey k p s).fb = s.fb := rfl
@[simp] theorem setKey_keys (s : State) (k : Fin 16) (p : Bool) : (setKey k p s).keys = s.keys.set k p := rfl
@[simp] theorem setKey_mem (s : State) (k : Fin 16) (p : Bool) : (setKey k p s).mem = s.mem := rfl
@[simp] theorem setKey_fault (s : State) (k : Fin 16) (p : Bool) : (setKey k p s).fault = s.fault := rfl
@[simp] theorem setKey_draws (s : State) (k : Fin 16) (p : Bool) : (setKey k p s).draws = s.draws := rfl
@[simp] theorem setKey_agenda (s : State) (k : Fin 16) (p : Bool) : (setKey k p s).agenda = s.agenda := rfl
@[simp] theorem setKey_config (s : State) (k : Fin 16) (p : Bool) : (setKey k p s).config = s.config := rfl
@[simp] theorem popTurn_v (s : State) : (popTurn s).v = s.v := rfl
@[simp] theorem popTurn_i (s : State) : (popTurn s).i = s.i := rfl
@[simp] theorem popTurn_pc (s : State) : (popTurn s).pc = s.pc := rfl
@[simp] theorem popTurn_sp (s : State) : (popTurn s).sp = s.sp := rfl
@[simp] theorem popTurn_stack (s : State) : (popTurn s).stack = s.stack := rfl
@[simp] theorem popTurn_dt (s : State) : (popTurn s).dt = s.dt := rfl
@[simp] theorem popTurn_st (s : State) : (popTurn s).st = s.st := rfl
@[simp] theorem popTurn_fb (s : State) : (popTurn s).fb = s.fb := rfl
@[simp] theorem popTurn_keys (s : State) : (popTurn s).keys = s.keys := rfl
@[simp] theorem popTurn_mem (s : State) : (popTurn s).mem = s.mem := rfl
@[simp] theorem popTurn_fault (s : State) : (popTurn s).fault = s.fault := rfl
@[simp] theorem popTurn_draws (s : State) : (popTurn s).draws = s.draws := rfl
@[simp] theorem popTurn_agenda (s : State) : (popTurn s).agenda = s.agenda.tail := rfl
@[simp] theorem popTurn_config (s : State) : (popTurn s).config = s.config := rfl

/-! ### skips -/

@[simp] theorem skipIf_v (s : State) (c : Bool) : (s.skipIf c).v = s.v := by cases c <;> rfl
@[simp] theorem skipIf_i (s : State) (c : Bool) : (s.skipIf c).i = s.i := by cases c <;> rfl
@[simp] theorem skipIf_sp (s : State) (c : Bool) : (s.skipIf c).sp = s.sp := by cases c <;> rfl
@[simp] theorem skipIf_stack (s : State) (c : Bool) : (s.skipIf c).stack = s.stack := by cases c <;> rfl
@[simp] theorem skipIf_dt (s : State) (c : Bool) : (s.skipIf c).dt = s.dt := by cases c <;> rfl
@[simp] theorem skipIf_st (s : State) (c : Bool) : (s.skipIf c).st = s.st := by cases c <;> rfl
@[simp] theorem skipIf_fb (s : State) (c : Bool) : (s.skipIf c).fb = s.fb := by cases c <;> rfl
@[simp] theorem skipIf_keys (s : State) (c : Bool) : (s.skipIf c).keys = s.keys := by cases c <;> rfl
@[simp] theorem skipIf_mem (s : State) (c : Bool) : (s.skipIf c).mem = s.mem := by cases c <;> rfl
@[simp] theorem skipIf_fault (s : State) (c : Bool) : (s.skipIf c).fault = s.fault := by cases c <;> rfl
@[simp] theorem skipIf_draws (s : State) (c : Bool) : (s.skipIf c).draws = s.draws := by cases c <;> rfl
@[simp] theorem skipIf_agenda (s : State) (c : Bool) : (s.skipIf c).agenda = s.agenda := by cases c <;> rfl
@[simp] theorem skipIf_config (s : State) (c : Bool) : (s.skipIf c).config = s.config := by cases c <;> rfl

theorem skipIf_pc (s : State) (c : Bool) : (s.skipIf c).pc = if c = true then s.pc + 2 else s.pc := by cases c <;> rfl

/-- A skip writes `pc` and nothing else. -/
theorem skipIf_eq (s : State) (c : Bool) : s.skipIf c = { s with pc := (s.skipIf c).pc } := by cases c <;> rfl

/-! A skip whose condition does not read a field commutes with writing that field. -/

theorem skipIf_with_dt (s : State) (a : Byte) (c : Bool) :
    ({ s with dt := a } : State).skipIf c = { s.skipIf c with dt := a } := by cases c <;> rfl
theorem skipIf_with_st (s : State) (a : Byte) (c : Bool) :
    ({ s with st := a } : State).skipIf c = { s.skipIf c with st := a } := by cases c <;> rfl
theorem skipIf_with_fb (s : State) (a : Frame) (c : Bool) :
    ({ s with fb := a } : State).skipIf c = { s.skipIf c with fb := a } := by cases c <;> rfl
theorem skipIf_with_keys (s : State) (a : Vector Bool 16) (c : Bool) :
    ({ s with keys := a } : State).skipIf c = { s.skipIf c with keys := a } := by cases c <;> rfl
theorem skipIf_with_mem (s : State) (a : Memory) (c : Bool) :
    ({ s with mem := a } : State).skipIf c = { s.skipIf c with mem := a } := by cases c <;> rfl
theorem skipIf_with_v (s : State) (a : Vector Byte 16) (c : Bool) :
    ({ s with v := a } : State).skipIf c = { s.skipIf c with v := a } := by cases c <;> rfl

/-! ### reading a register after a write -/

@[simp] theorem reg_setPc (s : State) (a : Word) (r : Reg) : (s.setPc a).reg r = s.reg r := rfl
@[simp] theorem reg_setI (s : State) (a : Word) (r : Reg) : (s.setI a).reg r = s.reg r := rfl
@[simp] theorem reg_skipIf (s : State) (c : Bool) (r : Reg) : (s.skipIf c).reg r = s.reg r := by cases c <;> rfl
@[simp] theorem reg_tick (s : State) (r : Reg) : (tick s).reg r = s.reg r := rfl
@[simp] theorem reg_setKey (s : State) (k : Fin 16) (p : Bool) (r : Reg) : (setKey k p s).reg r = s.reg r := rfl
@[simp] theorem reg_popTurn (s : State) (r : Reg) : (popTurn s).reg r = s.reg r := rfl

theorem reg_setReg (s : State) (x r : Reg) (b : Byte) : (s.setReg x b).reg r = if r = x then b else s.reg r := by
  simp [State.reg, Vector.getElem_set, Fin.ext_iff, eq_comm]

@[simp] theorem reg_setReg_same (s : State) (x : Reg) (b : Byte) : (s.setReg x b).reg x = b := by simp [reg_setReg]

theorem reg_setReg_of_ne (s : State) {x r : Reg} (b : Byte) (h : r ≠ x) : (s.setReg x b).reg r = s.reg r := by
  simp [reg_setReg, h]

/-- The flag is what `VF` holds, also when `VF` is the result's register (R24). -/
@[simp] theorem reg_setResultThenFlag_vf (s : State) (x : Reg) (b f : Byte) :
    (s.setResultThenFlag x b f).reg vf = f := by simp [State.setResultThenFlag]

theorem reg_setResultThenFlag_result (s : State) {x : Reg} (b f : Byte) (h : x ≠ vf) :
    (s.setResultThenFlag x b f).reg x = b := by simp [State.setResultThenFlag, reg_setReg, h]

theorem reg_setResultThenFlag_other (s : State) {x r : Reg} (b f : Byte) (h : r ≠ x) (h' : r ≠ vf) :
    (s.setResultThenFlag x b f).reg r = s.reg r := by simp [State.setResultThenFlag, reg_setReg, h, h']

/-- A register write changes the register file and nothing else. -/
theorem setReg_eq (s : State) (x : Reg) (b : Byte) : s.setReg x b = { s with v := (s.setReg x b).v } := rfl

/-- A result-and-flag write changes the register file and nothing else. -/
theorem setResultThenFlag_eq (s : State) (x : Reg) (b f : Byte) :
    s.setResultThenFlag x b f = { s with v := (s.setResultThenFlag x b f).v } := rfl

end Sys2Proof.Machine
end

