-- ==== Sys2Proof/Laws/Boot.lean ====
section
/-! SUPPORT. The boot image: what `load` answers, and what memory holds after it. -/

namespace Sys2Proof.Machine

theorem length_fontset (c : Config) : c.fontset.toList.length = 80 := Vector.length_toList

/-- Memory as `load` leaves it (R254). -/
def loadedMemory (c : Config) (rom : List Byte) (m : Memory) : Memory :=
  (m.writeBytes c.romStart.toNat rom).writeBytes c.fontBase.toNat c.fontset.toList

theorem load_of_fits {rom : List Byte} (s : State) (h : s.config.romStart.toNat + rom.length ≤ 4096) :
    load rom s = .ok { s with mem := loadedMemory s.config rom s.mem } := by
  rw [load, if_pos (by simp only [Config.memSize]; omega)]; rfl

theorem load_of_tooLarge {rom : List Byte} (s : State) (hc : s.config.wf = true)
    (h : 4096 < s.config.romStart.toNat + rom.length) : load rom s = .error .romTooLarge := by
  have := (Config.wf_iff _).mp hc
  rw [load, if_neg (by simp only [Config.memSize]; omega)]

theorem boot_of_fits {c : Config} {rom : List Byte} (h : c.romStart.toNat + rom.length ≤ 4096) :
    boot c rom = .ok { State.resetWith c with mem := loadedMemory c rom [] } := load_of_fits (State.resetWith c) h

theorem boot_of_tooLarge {c : Config} {rom : List Byte} (hc : c.wf = true) (h : 4096 < c.romStart.toNat + rom.length) :
    boot c rom = .error .romTooLarge := load_of_tooLarge (State.resetWith c) hc h

/-- A restart with a ROM that fits: the booted machine, with the coming turns and the random input going on (R250). -/
theorem restart_of_fits {rom : List Byte} (s : State) (h : s.config.romStart.toNat + rom.length ≤ 4096) :
    restart rom s = .next { State.resetWith s.config with
      mem := loadedMemory s.config rom [], draws := s.draws, agenda := s.agenda } := by
  rw [restart, load_of_fits { State.resetWith s.config with draws := s.draws, agenda := s.agenda } h]; rfl

theorem restart_of_tooLarge {rom : List Byte} (s : State) (hc : s.config.wf = true)
    (h : 4096 < s.config.romStart.toNat + rom.length) : restart rom s = .refused (.romTooLarge rom.length) := by
  rw [restart, load_of_tooLarge { State.resetWith s.config with draws := s.draws, agenda := s.agenda } hc h]

theorem wf_loadedMemory {m : Memory} (hm : m.wf = true) (c : Config) (rom : List Byte) : (loadedMemory c rom m).wf = true :=
  Memory.wf_writeBytes (Memory.wf_writeBytes hm _ _) _ _

/-- The ROM's bytes lie from `ROM_START` on: the font does not reach them (R254). -/
theorem read_loadedMemory_rom {m : Memory} (hm : m.wf = true) {c : Config} (hc : c.wf = true) {rom : List Byte}
    (h : c.romStart.toNat + rom.length ≤ 4096) {k : Nat} {b : Byte} (hk : rom[k]? = some b) :
    (loadedMemory c rom m).read (c.romStart.toNat + k) = b := by
  have := (Config.wf_iff _).mp hc
  rw [loadedMemory, Memory.read_writeBytes_of_outside _ _ (by rw [length_fontset]; omega)]
  exact Memory.read_writeBytes_inside hm _ h _ _ hk

/-- The font's bytes lie from `FONT_BASE` on (R254, R255). -/
theorem read_loadedMemory_font {m : Memory} (hm : m.wf = true) {c : Config} (hc : c.wf = true) (rom : List Byte)
    (k : Fin 80) : (loadedMemory c rom m).read (c.fontBase.toNat + k.val) = c.fontset[k] := by
  have := (Config.wf_iff _).mp hc
  refine Memory.read_writeBytes_inside (Memory.wf_writeBytes hm _ rom) _
    (by rw [length_fontset]; simp only [Config.memSize]; omega) k.val _ ?_
  simp

/-- Every other byte is as it was. -/
theorem read_loadedMemory_other (m : Memory) (c : Config) (rom : List Byte) {a : Nat}
    (hf : a < c.fontBase.toNat ∨ c.fontBase.toNat + 80 ≤ a)
    (hr : a < c.romStart.toNat ∨ c.romStart.toNat + rom.length ≤ a) : (loadedMemory c rom m).read a = m.read a := by
  rw [loadedMemory, Memory.read_writeBytes_of_outside _ _ (by rw [length_fontset]; exact hf),
    Memory.read_writeBytes_of_outside _ _ hr]

end Sys2Proof.Machine
end

