-- ==== Sys2Proof/Laws/Decode.lean ====
section
/-! SUPPORT. The decoder in terms of an opcode's group, low byte and low nibble as numbers, and the encoder's formats
in the same terms. -/

namespace Sys2Proof

/-! ### fields as numbers -/

theorem fieldX_val (op : Word) : (fieldX op).val = op.toNat / 256 % 16 := by
  simp [fieldX, Nat.shiftRight_eq_div_pow]

theorem fieldY_val (op : Word) : (fieldY op).val = op.toNat / 16 % 16 := by
  simp [fieldY, Nat.shiftRight_eq_div_pow]

theorem fieldN_val (op : Word) : (fieldN op).val = op.toNat % 16 := by
  simp [fieldN]

theorem fieldKK_toNat (op : Word) : (fieldKK op).toNat = op.toNat % 256 := by
  simp [fieldKK, BitVec.extractLsb'_toNat]

theorem fieldNNN_toNat (op : Word) : (fieldNNN op).toNat = op.toNat % 4096 := by
  simp [fieldNNN, BitVec.extractLsb'_toNat]

theorem fieldX_eq {op : Word} {x : Reg} (h : op.toNat / 256 % 16 = x.val) : fieldX op = x :=
  Fin.ext (by rw [fieldX_val, h])

theorem fieldY_eq {op : Word} {y : Reg} (h : op.toNat / 16 % 16 = y.val) : fieldY op = y :=
  Fin.ext (by rw [fieldY_val, h])

theorem fieldN_eq {op : Word} {n : Fin 16} (h : op.toNat % 16 = n.val) : fieldN op = n :=
  Fin.ext (by rw [fieldN_val, h])

theorem fieldKK_eq {op : Word} {kk : Byte} (h : op.toNat % 256 = kk.toNat) : fieldKK op = kk :=
  BitVec.eq_of_toNat_eq (by rw [fieldKK_toNat, h])

theorem fieldNNN_eq {op : Word} {nnn : Addr12} (h : op.toNat % 4096 = nnn.toNat) : fieldNNN op = nnn :=
  BitVec.eq_of_toNat_eq (by rw [fieldNNN_toNat, h])

/-! ### the row test as numbers -/

theorem and_group (op : Word) : (op &&& (0xF000 : Word)).toNat = op.toNat / 4096 * 4096 := by
  have h : op &&& (0xF000 : Word) = (op >>> 12) <<< 12 := by
    apply BitVec.eq_of_getLsbD_eq
    intro i hi
    interval_cases i <;> simp
  rw [h, BitVec.toNat_shiftLeft, BitVec.toNat_ushiftRight]
  have := op.isLt
  simp [Nat.shiftRight_eq_div_pow, Nat.shiftLeft_eq]; omega

theorem and_lowByte (op : Word) : (op &&& (0x00FF : Word)).toNat = op.toNat % 256 := by
  rw [BitVec.toNat_and]
  exact Nat.and_two_pow_sub_one_eq_mod op.toNat 8

theorem and_lowNibble (op : Word) : (op &&& (0x000F : Word)).toNat = op.toNat % 16 := by
  rw [BitVec.toNat_and]
  exact Nat.and_two_pow_sub_one_eq_mod op.toNat 4

/-- A mask that joins two disjoint masks keeps the sum of what each keeps. -/
theorem and_join (op m1 m2 : Word) (h : m1 &&& m2 = 0) :
    (op &&& (m1 ||| m2)).toNat = ((op &&& m1).toNat + (op &&& m2).toNat) % 65536 := by
  have hd : (op &&& m1) &&& (op &&& m2) = 0 := by
    rw [show (op &&& m1) &&& (op &&& m2) = op &&& op &&& (m1 &&& m2) by ac_rfl, h]; simp
  have hor : op &&& (m1 ||| m2) = (op &&& m1) + (op &&& m2) := by
    rw [BitVec.add_eq_or_of_and_eq_zero _ _ hd]
    apply BitVec.eq_of_getLsbD_eq
    intro i _
    simp only [BitVec.getLsbD_and, BitVec.getLsbD_or, Bool.and_or_distrib_left]
  rw [hor, BitVec.toNat_add]

theorem selects_group_iff (op p : Word) (g : Nat) (hp : p.toNat = g * 4096) :
    selects op 0xF000 p = true ↔ op.toNat / 4096 = g := by
  rw [selects, beq_iff_eq, ← BitVec.toNat_inj, and_group, hp]
  omega

theorem selects_lowByte_iff (op p : Word) (g b : Nat) (hp : p.toNat = g * 4096 + b) (hb : b < 256) :
    selects op 0xF0FF p = true ↔ op.toNat / 4096 = g ∧ op.toNat % 256 = b := by
  have h := and_join op 0xF000 0x00FF rfl
  rw [and_group, and_lowByte] at h
  rw [selects, beq_iff_eq, ← BitVec.toNat_inj, show (0xF0FF : Word) = 0xF000 ||| 0x00FF from rfl, h, hp]
  have := op.isLt
  omega

theorem selects_lowNibble_iff (op p : Word) (g b : Nat) (hp : p.toNat = g * 4096 + b) (hb : b < 16) :
    selects op 0xF00F p = true ↔ op.toNat / 4096 = g ∧ op.toNat % 16 = b := by
  have h := and_join op 0xF000 0x000F rfl
  rw [and_group, and_lowNibble] at h
  rw [selects, beq_iff_eq, ← BitVec.toNat_inj, show (0xF00F : Word) = 0xF000 ||| 0x000F from rfl, h, hp]
  have := op.isLt
  omega

/-- The decoder over the group, the low byte and the low nibble (R75): the rows of R76 in the same order. -/
theorem decode_eq (op : Word) :
    decode op =
      if op.toNat / 4096 = 0x0 ∧ op.toNat % 256 = 0xE0 then .cls
      else if op.toNat / 4096 = 0x0 ∧ op.toNat % 256 = 0xEE then .ret
      else if op.toNat / 4096 = 0x0 then .sys (fieldNNN op)
      else if op.toNat / 4096 = 0x1 then .jp (fieldNNN op)
      else if op.toNat / 4096 = 0x2 then .call (fieldNNN op)
      else if op.toNat / 4096 = 0x3 then .seByte (fieldX op) (fieldKK op)
      else if op.toNat / 4096 = 0x4 then .sneByte (fieldX op) (fieldKK op)
      else if op.toNat / 4096 = 0x5 then .seReg (fieldX op) (fieldY op)
      else if op.toNat / 4096 = 0x6 then .ldByte (fieldX op) (fieldKK op)
      else if op.toNat / 4096 = 0x7 then .addByte (fieldX op) (fieldKK op)
      else if op.toNat / 4096 = 0x8 ∧ op.toNat % 16 = 0x0 then .ldReg (fieldX op) (fieldY op)
      else if op.toNat / 4096 = 0x8 ∧ op.toNat % 16 = 0x1 then .orReg (fieldX op) (fieldY op)
      else if op.toNat / 4096 = 0x8 ∧ op.toNat % 16 = 0x2 then .andReg (fieldX op) (fieldY op)
      else if op.toNat / 4096 = 0x8 ∧ op.toNat % 16 = 0x3 then .xorReg (fieldX op) (fieldY op)
      else if op.toNat / 4096 = 0x8 ∧ op.toNat % 16 = 0x4 then .addReg (fieldX op) (fieldY op)
      else if op.toNat / 4096 = 0x8 ∧ op.toNat % 16 = 0x5 then .subReg (fieldX op) (fieldY op)
      else if op.toNat / 4096 = 0x8 ∧ op.toNat % 16 = 0x6 then .shr (fieldX op)
      else if op.toNat / 4096 = 0x8 ∧ op.toNat % 16 = 0x7 then .subnReg (fieldX op) (fieldY op)
      else if op.toNat / 4096 = 0x8 ∧ op.toNat % 16 = 0xE then .shl (fieldX op)
      else if op.toNat / 4096 = 0x9 then .sneReg (fieldX op) (fieldY op)
      else if op.toNat / 4096 = 0xA then .ldI (fieldNNN op)
      else if op.toNat / 4096 = 0xB then .jpV0 (fieldNNN op)
      else if op.toNat / 4096 = 0xC then .rnd (fieldX op) (fieldKK op)
      else if op.toNat / 4096 = 0xD then .drw (fieldX op) (fieldY op) (fieldN op)
      else if op.toNat / 4096 = 0xE ∧ op.toNat % 256 = 0x9E then .skp (fieldX op)
      else if op.toNat / 4096 = 0xE ∧ op.toNat % 256 = 0xA1 then .sknp (fieldX op)
      else if op.toNat / 4096 = 0xF ∧ op.toNat % 256 = 0x07 then .ldVxDT (fieldX op)
      else if op.toNat / 4096 = 0xF ∧ op.toNat % 256 = 0x0A then .ldVxK (fieldX op)
      else if op.toNat / 4096 = 0xF ∧ op.toNat % 256 = 0x15 then .ldDTVx (fieldX op)
      else if op.toNat / 4096 = 0xF ∧ op.toNat % 256 = 0x18 then .ldSTVx (fieldX op)
      else if op.toNat / 4096 = 0xF ∧ op.toNat % 256 = 0x1E then .addIVx (fieldX op)
      else if op.toNat / 4096 = 0xF ∧ op.toNat % 256 = 0x29 then .ldFVx (fieldX op)
      else if op.toNat / 4096 = 0xF ∧ op.toNat % 256 = 0x33 then .ldBVx (fieldX op)
      else if op.toNat / 4096 = 0xF ∧ op.toNat % 256 = 0x55 then .ldMemVx (fieldX op)
      else if op.toNat / 4096 = 0xF ∧ op.toNat % 256 = 0x65 then .ldVxMem (fieldX op)
      else .nop := by
  unfold decode
  simp only [selects_lowByte_iff op 0x00E0 0x0 0xE0 rfl (by decide),
    selects_lowByte_iff op 0x00EE 0x0 0xEE rfl (by decide),
    selects_group_iff op 0x0000 0x0 rfl,
    selects_group_iff op 0x1000 0x1 rfl,
    selects_group_iff op 0x2000 0x2 rfl,
    selects_group_iff op 0x3000 0x3 rfl,
    selects_group_iff op 0x4000 0x4 rfl,
    selects_group_iff op 0x5000 0x5 rfl,
    selects_group_iff op 0x6000 0x6 rfl,
    selects_group_iff op 0x7000 0x7 rfl,
    selects_lowNibble_iff op 0x8000 0x8 0x0 rfl (by decide),
    selects_lowNibble_iff op 0x8001 0x8 0x1 rfl (by decide),
    selects_lowNibble_iff op 0x8002 0x8 0x2 rfl (by decide),
    selects_lowNibble_iff op 0x8003 0x8 0x3 rfl (by decide),
    selects_lowNibble_iff op 0x8004 0x8 0x4 rfl (by decide),
    selects_lowNibble_iff op 0x8005 0x8 0x5 rfl (by decide),
    selects_lowNibble_iff op 0x8006 0x8 0x6 rfl (by decide),
    selects_lowNibble_iff op 0x8007 0x8 0x7 rfl (by decide),
    selects_lowNibble_iff op 0x800E 0x8 0xE rfl (by decide),
    selects_group_iff op 0x9000 0x9 rfl,
    selects_group_iff op 0xA000 0xA rfl,
    selects_group_iff op 0xB000 0xB rfl,
    selects_group_iff op 0xC000 0xC rfl,
    selects_group_iff op 0xD000 0xD rfl,
    selects_lowByte_iff op 0xE09E 0xE 0x9E rfl (by decide),
    selects_lowByte_iff op 0xE0A1 0xE 0xA1 rfl (by decide),
    selects_lowByte_iff op 0xF007 0xF 0x07 rfl (by decide),
    selects_lowByte_iff op 0xF00A 0xF 0x0A rfl (by decide),
    selects_lowByte_iff op 0xF015 0xF 0x15 rfl (by decide),
    selects_lowByte_iff op 0xF018 0xF 0x18 rfl (by decide),
    selects_lowByte_iff op 0xF01E 0xF 0x1E rfl (by decide),
    selects_lowByte_iff op 0xF029 0xF 0x29 rfl (by decide),
    selects_lowByte_iff op 0xF033 0xF 0x33 rfl (by decide),
    selects_lowByte_iff op 0xF055 0xF 0x55 rfl (by decide),
    selects_lowByte_iff op 0xF065 0xF 0x65 rfl (by decide)]

/-! ### the encoder's formats as numbers -/

theorem regBits_toNat (r : Fin 16) : (regBits r).toNat = r.val := rfl

/-- Joining bit vectors, as numbers. -/
theorem append_toNat {n m : Nat} (a : BitVec n) (b : BitVec m) : (a ++ b).toNat = a.toNat * 2 ^ m + b.toNat := by
  rw [BitVec.toNat_append, Nat.shiftLeft_eq, Nat.mul_comm, ← Nat.two_pow_add_eq_or_of_lt b.isLt]

theorem formatA_toNat (g : BitVec 4) (nnn : Addr12) : (formatA g nnn).toNat = g.toNat * 4096 + nnn.toNat :=
  append_toNat g nnn

theorem formatXK_toNat (g : BitVec 4) (x : Reg) (kk : Byte) :
    (formatXK g x kk).toNat = g.toNat * 4096 + x.val * 256 + kk.toNat := by
  rw [formatXK, append_toNat, append_toNat, regBits_toNat]
  omega

theorem formatXY_toNat (g : BitVec 4) (x y : Reg) (low : BitVec 4) :
    (formatXY g x y low).toNat = g.toNat * 4096 + x.val * 256 + y.val * 16 + low.toNat := by
  rw [formatXY, append_toNat, append_toNat, append_toNat, regBits_toNat, regBits_toNat]
  omega

/-- An opcode split into its two bytes and joined again is itself (R55). -/
theorem opcodeOfBytes_bytesOfOpcode (op : Word) : opcodeOfBytes (op.extractLsb' 8 8) (op.extractLsb' 0 8) = op := by
  apply BitVec.eq_of_getLsbD_eq
  intro i hi
  simp only [opcodeOfBytes, BitVec.getLsbD_append, BitVec.getLsbD_extractLsb']
  by_cases h : i < 8
  · simp [h]
  · simp [h, show i - 8 < 8 by omega, show 8 + (i - 8) = i by omega]

/-- The opcode of two bytes as a number, the first byte its high half (R55). -/
theorem opcodeOfBytes_toNat (hi lo : Byte) : (opcodeOfBytes hi lo).toNat = hi.toNat * 256 + lo.toNat := by
  exact append_toNat hi lo

theorem decodeBytes_bytesOfOpcode (op : Word) : decodeBytes (bytesOfOpcode op) = .ok (decode op, []) := by
  simp [bytesOfOpcode, decodeBytes, opcodeOfBytes_bytesOfOpcode]

end Sys2Proof
end

