-- ==== Sys2Proof/Laws/Ops.lean ====
section
/-! SUPPORT. The shared operations and operand forms: one lemma each that says what they can do. -/

namespace Sys2Proof.Machine

/-! ### ranges and faults -/

theorem inBounds_iff (base count : Nat) : inBounds base count = true ↔ count = 0 ∨ base + count ≤ Config.memSize := by
  simp [inBounds]

theorem inBounds_eq_false_iff (base count : Nat) :
    inBounds base count = false ↔ 0 < count ∧ Config.memSize < base + count := by
  rw [← Bool.not_eq_true, inBounds_iff]; omega

/-- Fault entry (R221), written out. -/
theorem takeFault_eq (cause : Cause) (pc0 info : Word) (s : State) :
    takeFault cause pc0 info s = .next { s with pc := pc0, fault := some ⟨cause, pc0, info⟩ } := rfl

/-- A fault raised while executing, written out: the latch and `pc`, nothing else. -/
theorem raise_eq (cause : Cause) (info : Word) (s : State) :
    raise cause info s = .next { s with pc := s.pc - 2, fault := some ⟨cause, s.pc - 2, info⟩ } := rfl

theorem withRange_of_inBounds {count : Nat} {s : State} (go : Result) (h : inBounds s.i.toNat count = true) :
    withRange count s go = go := by simp [withRange, h]

theorem withRange_of_not_inBounds {count : Nat} {s : State} (go : Result) (h : inBounds s.i.toNat count = false) :
    withRange count s go = raise .memOutOfBounds (lowestOutOfRange s.i) s := by simp [withRange, h]

theorem lowestOutOfRange_toNat (i : Word) : (lowestOutOfRange i).toNat = max i.toNat Config.memSize := by
  have := i.isLt
  simp only [lowestOutOfRange, BitVec.toNat_ofNat, Config.memSize]
  exact Nat.mod_eq_of_lt (by omega)

theorem lowestOutOfRange_eq (i : Word) : lowestOutOfRange i = if i.toNat < 4096 then 4096 else i := by
  apply BitVec.eq_of_toNat_eq
  rw [lowestOutOfRange_toNat]
  split <;> simp [Config.memSize] <;> omega

/-! ### operand values -/

@[simp] theorem zextAddr_toNat (nnn : Addr12) : (zextAddr nnn).toNat = nnn.toNat := by
  have := nnn.isLt
  simp [zextAddr, BitVec.toNat_setWidth]; omega

@[simp] theorem zextByte_toNat (b : Byte) : (zextByte b).toNat = b.toNat := by
  have := b.isLt
  simp [zextByte, BitVec.toNat_setWidth]; omega

/-- The sum of JP V0,addr never wraps (R122). -/
theorem offsetTarget_toNat (nnn : Addr12) (b : Byte) : (offsetTarget nnn b).toNat = nnn.toNat + b.toNat := by
  have := nnn.isLt; have := b.isLt
  simp [offsetTarget, BitVec.toNat_add]; omega

/-- A glyph's address, in a font that ends inside the address space (R164). -/
theorem glyphAddress_toNat {fontBase : Word} (h : fontBase.toNat + 80 ≤ 65536) (b : Byte) :
    (glyphAddress fontBase b).toNat = fontBase.toNat + 5 * (b.toNat % 16) := by
  simp [glyphAddress, Config.glyphBytes, BitVec.toNat_add]; omega

@[simp] theorem length_bcdDigits (b : Byte) : (bcdDigits b).length = 3 := rfl

@[simp] theorem length_savedBytes (s : State) (x : Reg) : (savedBytes s x).length = x.val + 1 := by
  have := x.isLt
  simp [savedBytes]

theorem getElem?_savedBytes (s : State) (x k : Reg) (h : k.val ≤ x.val) : (savedBytes s x)[k.val]? = some (s.reg k) := by
  have := k.isLt
  simp [savedBytes, show k.val < x.val + 1 by omega, State.reg]

theorem reg_restoredRegs (s t : State) (x k : Reg) (h : t.v = restoredRegs s x) :
    t.reg k = if k.val ≤ x.val then s.mem.read (s.i.toNat + k.val) else s.reg k := by
  simp [State.reg, h, restoredRegs]

/-! ### flags -/

theorem flagByte_toNat (b : Bool) : (flagByte b).toNat = b.toNat := by cases b <;> rfl

theorem flagByte_eq_one_iff (b : Bool) : flagByte b = 1 ↔ b = true := by cases b <;> decide

theorem flagByte_eq_zero_iff (b : Bool) : flagByte b = 0 ↔ b = false := by cases b <;> decide

theorem carryFlag_eq (a b : Byte) : carryFlag a b = if a.toNat + b.toNat > 255 then 1 else 0 := by
  by_cases h : 255 < a.toNat + b.toNat <;> simp [carryFlag, flagByte, h]

theorem carryFlag_toNat (a b : Byte) : (carryFlag a b).toNat = (a.toNat + b.toNat) / 256 := by
  have := a.isLt; have := b.isLt
  rw [carryFlag_eq]
  split <;> simp <;> omega

theorem subFlag_eq (a b : Byte) : subFlag a b = if a.toNat > b.toNat then 1 else 0 := by
  by_cases h : b.toNat < a.toNat <;> simp [subFlag, flagByte, h]

theorem subnFlag_eq (a b : Byte) : subnFlag a b = if a.toNat > b.toNat then 0 else 1 := by
  by_cases h : b.toNat < a.toNat
  · simp [subnFlag, flagByte, h]
  · simp [subnFlag, flagByte, h]

theorem shrFlag_toNat (a : Byte) : (shrFlag a).toNat = a.toNat % 2 := by
  rw [shrFlag, flagByte_toNat, BitVec.getLsbD, Nat.testBit_zero]
  rcases Nat.mod_two_eq_zero_or_one a.toNat with h | h <;> simp [h]

theorem shlFlag_toNat (a : Byte) : (shlFlag a).toNat = a.toNat / 128 := by
  have := a.isLt
  rw [shlFlag, flagByte_toNat, BitVec.getLsbD, Nat.testBit_eq_decide_div_mod_eq]
  have h : a.toNat / 128 = 0 ∨ a.toNat / 128 = 1 := by omega
  rcases h with h | h <;> simp [h]

/-! ### keys -/

theorem keyIndex_of_eq {b : Byte} {k : Fin 16} (h : b.toNat = k.val) : keyIndex b = some k := by
  have := k.isLt
  simp [keyIndex, h]

theorem keyIndex_of_gt {b : Byte} (h : 15 < b.toNat) : keyIndex b = none := by
  simp [keyIndex]; omega

theorem withKey_of_eq {x : Reg} {s : State} {k : Fin 16} (go : Fin 16 → Result) (h : (s.reg x).toNat = k.val) :
    withKey x s go = go k := by simp [withKey, keyIndex_of_eq h]

theorem withKey_of_gt {x : Reg} {s : State} (go : Fin 16 → Result) (h : 15 < (s.reg x).toNat) :
    withKey x s go = raise .keyIndexOutOfRange (zextByte (s.reg x)) s := by simp [withKey, keyIndex_of_gt h]

/-- The scan stops at the smallest pressed key (R204). -/
theorem firstPressed_eq_some_iff (s : State) (k : Nat) :
    firstPressed s = some k ↔ ∃ h : k < 16, s.keys[k] = true ∧ ∀ j : Fin 16, j.val < k → s.keys[j] = false := by
  simp only [firstPressed, List.findIdx?_eq_some_iff_getElem, Vector.length_toList, id]
  constructor
  · rintro ⟨h, hk, hj⟩
    exact ⟨h, by simpa using hk, fun j hlt => by simpa using hj j.val hlt⟩
  · rintro ⟨h, hk, hj⟩
    exact ⟨h, by simpa using hk, fun j hlt => by simpa using hj ⟨j, by omega⟩ hlt⟩

theorem firstPressed_eq_none_iff (s : State) : firstPressed s = none ↔ ∀ k : Fin 16, s.keys[k] = false := by
  simp only [firstPressed, List.findIdx?_eq_none_iff, Vector.mem_toList_iff, id]
  constructor
  · intro h k
    exact h _ (Vector.getElem_mem k.isLt)
  · intro h b hb
    obtain ⟨k, hk, rfl⟩ := Vector.getElem_of_mem hb
    exact h ⟨k, hk⟩

/-! ### timers -/

theorem countDown_toNat (t : Byte) : (countDown t).toNat = t.toNat - 1 := by
  by_cases h : t = 0
  · subst h; rfl
  · have h0 : t.toNat ≠ 0 := fun hz => h (BitVec.eq_of_toNat_eq (by simpa using hz))
    have := t.isLt
    simp only [countDown, if_neg h, BitVec.toNat_sub]
    simp; omega

end Sys2Proof.Machine
end

