-- ==== Sys2Proof/Laws/Display.lean ====
section
/-! SUPPORT. The framebuffer cell by cell: its shape, and what the row mask, the line detector and the drawing of a
whole sprite do. -/

namespace Sys2Proof.Machine

/-! ### lines and frames -/

theorem Line.cell_of_lt (l : Line) {col : Nat} (h : col < l.length) : l.cell col = l[col] := by simp [Line.cell, h]

theorem Line.cell_of_ge (l : Line) {col : Nat} (h : l.length ≤ col) : l.cell col = false := by simp [Line.cell, h]

theorem Frame.cell_of_some {fb : Frame} {row : Nat} {l : Line} (h : fb[row]? = some l) (col : Nat) :
    fb.cell row col = l.cell col := by simp [Frame.cell, h]

theorem Frame.cell_of_none {fb : Frame} {row : Nat} (h : fb[row]? = none) (col : Nat) : fb.cell row col = false := by
  simp [Frame.cell, h, Line.cell]

theorem Frame.cell_set (fb : Frame) {py : Nat} (l : Line) (h : py < fb.length) (row col : Nat) :
    Frame.cell (fb.set py l) row col = if row = py then l.cell col else fb.cell row col := by
  by_cases he : row = py
  · subst he; simp [Frame.cell, h]
  · simp [Frame.cell, he, List.getElem?_set_ne fun e : py = row => he e.symm]

/-- The shape, in numbers (R36). -/
theorem Frame.shaped_iff {width height : Nat} {fb : Frame} :
    fb.shaped width height = true ↔ fb.length = height ∧ ∀ (row : Nat) (l : Line), fb[row]? = some l → l.length = width := by
  simp only [Frame.shaped, Bool.and_eq_true, beq_iff_eq, List.all_eq_true, List.mem_iff_getElem?]
  exact and_congr_right fun _ => ⟨fun h row l hl => h l ⟨row, hl⟩, fun h l ⟨row, hl⟩ => h row l hl⟩

/-- A lit cell of a shaped framebuffer lies on the screen. -/
theorem Frame.shaped.lt_of_cell {width height : Nat} {fb : Frame} (h : fb.shaped width height = true) {row col : Nat}
    (hc : fb.cell row col = true) : row < height ∧ col < width := by
  obtain ⟨hlen, hline⟩ := Frame.shaped_iff.mp h
  cases hr : fb[row]? with
  | none => simp [Frame.cell_of_none hr] at hc
  | some l =>
    refine ⟨hlen ▸ (List.getElem?_eq_some_iff.mp hr).1, Nat.lt_of_not_le fun hge => ?_⟩
    rw [Frame.cell_of_some hr, Line.cell_of_ge l (hline row l hr ▸ hge)] at hc
    cases hc

theorem Frame.shaped.getElem? {width height : Nat} {fb : Frame} (h : fb.shaped width height = true) {row : Nat}
    (hr : row < height) : ∃ l : Line, fb[row]? = some l ∧ l.length = width := by
  obtain ⟨hlen, hline⟩ := Frame.shaped_iff.mp h
  have hl : fb[row]? = some (fb[row]'(hlen ▸ hr)) := List.getElem?_eq_getElem (hlen ▸ hr)
  exact ⟨_, hl, hline _ _ hl⟩

/-- Two shaped framebuffers with equal cells are equal. -/
theorem Frame.ext_cell {width height : Nat} {f g : Frame} (hf : f.shaped width height = true)
    (hg : g.shaped width height = true) (h : ∀ row col, row < height → col < width → f.cell row col = g.cell row col) :
    f = g := by
  apply List.ext_getElem?
  intro row
  by_cases hr : row < height
  · obtain ⟨l, hl, hl'⟩ := Frame.shaped.getElem? hf hr
    obtain ⟨m, hm, hm'⟩ := Frame.shaped.getElem? hg hr
    rw [hl, hm, Option.some_inj]
    refine List.ext_getElem (hl'.trans hm'.symm) fun col h1 h2 => ?_
    have := h row col hr (hl' ▸ h1)
    rwa [Frame.cell_of_some hl, Frame.cell_of_some hm, Line.cell_of_lt l h1, Line.cell_of_lt m h2] at this
  · rw [List.getElem?_eq_none ((Frame.shaped_iff.mp hf).1 ▸ Nat.not_lt.mp hr),
      List.getElem?_eq_none ((Frame.shaped_iff.mp hg).1 ▸ Nat.not_lt.mp hr)]

@[simp] theorem Frame.cell_blank (width height row col : Nat) : (Frame.blank width height).cell row col = false := by
  by_cases hr : row < height <;> by_cases hc : col < width <;> simp [Frame.blank, Frame.cell, Line.cell, hr, hc]

theorem Frame.shaped_blank (width height : Nat) : (Frame.blank width height).shaped width height = true := by
  rw [Frame.shaped_iff]
  refine ⟨by simp [Frame.blank], fun row l h => ?_⟩
  simp only [Frame.blank, List.getElem?_replicate] at h
  split at h <;> cases h
  simp

/-! ### one line (R181) -/

@[simp] theorem length_rowMask (width : Nat) (sprite : Byte) (ax : Nat) : (rowMask width sprite ax).length = width := by
  simp [rowMask]

/-- The mask, column by column. -/
theorem cell_rowMask (width : Nat) (sprite : Byte) (ax col : Nat) (hcol : col < width) :
    (rowMask width sprite ax).cell col =
      (decide (ax ≤ col) && decide (col < ax + 8) && sprite.getLsbD (7 - (col - ax))) := by
  rw [Line.cell_of_lt _ (by simpa using hcol)]
  have : col ≤ 7 + ax ↔ col < ax + 8 := by omega
  by_cases h : ax ≤ col <;> simp [rowMask, h, this]

theorem length_flipLine {l mask : Line} (h : mask.length = l.length) : (flipLine l mask).length = l.length := by
  simp [flipLine, h]

theorem cell_flipLine {l mask : Line} (h : mask.length = l.length) (col : Nat) :
    (flipLine l mask).cell col = (l.cell col ^^ mask.cell col) := by
  by_cases hc : col < l.length
  · rw [Line.cell_of_lt _ (by rw [length_flipLine h]; exact hc), Line.cell_of_lt l hc, Line.cell_of_lt mask (h ▸ hc)]
    simp [flipLine]
  · rw [Line.cell_of_ge _ (by rw [length_flipLine h]; omega), Line.cell_of_ge l (by omega), Line.cell_of_ge mask (by omega)]
    rfl

/-- The detector's hit. -/
theorem lineHit_iff {l mask : Line} : lineHit l mask = true ↔ ∃ col, l.cell col = true ∧ mask.cell col = true := by
  simp only [lineHit, List.any_eq_true, List.mem_iff_getElem, id]
  constructor
  · rintro ⟨b, ⟨col, hcol, rfl⟩, hb⟩
    simp only [List.length_zipWith, Nat.lt_min] at hcol
    simp only [List.getElem_zipWith, Bool.and_eq_true] at hb
    exact ⟨col, by rw [Line.cell_of_lt l hcol.1]; exact hb.1, by rw [Line.cell_of_lt mask hcol.2]; exact hb.2⟩
  · rintro ⟨col, h1, h2⟩
    have hl : col < l.length := Nat.lt_of_not_le fun h => by simp [Line.cell_of_ge l h] at h1
    have hm : col < mask.length := Nat.lt_of_not_le fun h => by simp [Line.cell_of_ge mask h] at h2
    rw [Line.cell_of_lt l hl] at h1
    rw [Line.cell_of_lt mask hm] at h2
    exact ⟨true, ⟨col, by simp [hl, hm], by simp [h1, h2]⟩, rfl⟩

/-! ### a whole sprite (R182) -/

/-- The sprite bit that falls on a place when rows `bytes` are drawn from row `py` down at column `ax`. -/
def bitOfRows (bytes : List Byte) (ax py row col : Nat) : Bool :=
  decide (py ≤ row) && decide (ax ≤ col) && decide (col < ax + 8) &&
    ((bytes[row - py]?).getD 0).getLsbD (7 - (col - ax))

theorem bitOfRows_nil (ax py row col : Nat) : bitOfRows [] ax py row col = false := by simp [bitOfRows]

theorem bitOfRows_cons (b : Byte) (bytes : List Byte) (ax py row col : Nat) :
    bitOfRows (b :: bytes) ax py row col =
      if row = py then decide (ax ≤ col) && decide (col < ax + 8) && b.getLsbD (7 - (col - ax))
      else bitOfRows bytes ax (py + 1) row col := by
  by_cases h : row = py
  · subst h; simp [bitOfRows]
  · by_cases h1 : py ≤ row
    · obtain ⟨d, rfl⟩ : ∃ d, row = py + 1 + d := ⟨row - (py + 1), by omega⟩
      simp [bitOfRows, h, h1, show py + 1 + d - py = d + 1 by omega, show py + 1 + d - (py + 1) = d by omega]
    · simp [bitOfRows, h, h1, show ¬ py + 1 ≤ row by omega]

/-- One row of a sprite drawn on the screen: the line flipped, and the hit joined to that of the rest. -/
theorem drawRows_cons_of_some {width ax py : Nat} {b : Byte} {bytes : List Byte} {fb : Frame} {l : Line}
    (h : fb[py]? = some l) :
    drawRows width ax py (b :: bytes) fb =
      ((drawRows width ax (py + 1) bytes (fb.set py (flipLine l (rowMask width b ax)))).1,
        lineHit l (rowMask width b ax) ||
          (drawRows width ax (py + 1) bytes (fb.set py (flipLine l (rowMask width b ax)))).2) := by
  simp only [drawRows, h]

theorem drawRows_cons_of_none {width ax py : Nat} {b : Byte} {bytes : List Byte} {fb : Frame} (h : fb[py]? = none) :
    drawRows width ax py (b :: bytes) fb = drawRows width ax (py + 1) bytes fb := by
  simp only [drawRows, h]

theorem Frame.shaped.set {width height : Nat} {fb : Frame} (h : fb.shaped width height = true) {py : Nat} {l : Line}
    (hl : l.length = width) : Frame.shaped width height (fb.set py l) = true := by
  obtain ⟨hlen, hline⟩ := Frame.shaped_iff.mp h
  refine Frame.shaped_iff.mpr ⟨by simp [hlen], fun row m hm => ?_⟩
  rw [List.getElem?_set] at hm
  split at hm
  · split at hm <;> cases hm
    exact hl
  · exact hline row m hm

/-- What drawing does to a shaped framebuffer, whole: the shape stays, every cell is XORed with the sprite bit that
falls on it, and the collision bit says that some cell was 1 and a sprite bit fell on it (R182). -/
theorem drawRows_spec (width : Nat) {height : Nat} (ax py : Nat) (bytes : List Byte) {fb : Frame}
    (hfb : fb.shaped width height = true) :
    (drawRows width ax py bytes fb).1.shaped width height = true ∧
    (∀ row col, row < height → col < width →
      (drawRows width ax py bytes fb).1.cell row col = (fb.cell row col ^^ bitOfRows bytes ax py row col)) ∧
    ((drawRows width ax py bytes fb).2 = true ↔ ∃ row col, row < height ∧ col < width ∧ fb.cell row col = true ∧
      bitOfRows bytes ax py row col = true) := by
  induction bytes generalizing py fb with
  | nil => simp [drawRows, bitOfRows_nil, hfb]
  | cons b bytes ih =>
    by_cases h : py < height
    · obtain ⟨l, hl, hlen⟩ := Frame.shaped.getElem? hfb h
      have hpy : py < fb.length := (Frame.shaped_iff.mp hfb).1.symm ▸ h
      have hm : (rowMask width b ax).length = l.length := by rw [length_rowMask, hlen]
      obtain ⟨ih1, ih2, ih3⟩ := ih (py + 1)
        (Frame.shaped.set hfb (py := py) (l := flipLine l (rowMask width b ax)) (by rw [length_flipLine hm, hlen]))
      rw [drawRows_cons_of_some hl]
      refine ⟨ih1, fun row col hrow hcol => ?_, ?_⟩
      · rw [ih2 row col hrow hcol, Frame.cell_set fb _ hpy, bitOfRows_cons]
        by_cases he : row = py
        · subst he
          have : bitOfRows bytes ax (row + 1) row col = false := by simp [bitOfRows]
          rw [if_pos rfl, if_pos rfl, cell_flipLine hm, cell_rowMask _ _ _ _ hcol, Frame.cell_of_some hl, this, Bool.xor_false]
        · rw [if_neg he, if_neg he]
      · rw [Bool.or_eq_true, lineHit_iff, ih3]
        constructor
        · rintro (⟨col, h1, h2⟩ | ⟨row, col, hrow, hcol, h1, h2⟩)
          · rw [← Frame.cell_of_some hl] at h1
            have hcol := (Frame.shaped.lt_of_cell hfb h1).2
            exact ⟨py, col, h, hcol, h1, by rw [bitOfRows_cons, if_pos rfl, ← cell_rowMask _ _ _ _ hcol, h2]⟩
          · have he : row ≠ py := by
              rintro rfl
              simp [bitOfRows] at h2
            exact ⟨row, col, hrow, hcol, by rwa [Frame.cell_set fb _ hpy, if_neg he] at h1, by rwa [bitOfRows_cons, if_neg he]⟩
        · rintro ⟨row, col, hrow, hcol, h1, h2⟩
          by_cases he : row = py
          · subst he
            rw [bitOfRows_cons, if_pos rfl, ← cell_rowMask _ _ _ _ hcol] at h2
            exact .inl ⟨col, by rwa [← Frame.cell_of_some hl], h2⟩
          · rw [bitOfRows_cons, if_neg he] at h2
            exact .inr ⟨row, col, hrow, hcol, by rwa [Frame.cell_set fb _ hpy, if_neg he], h2⟩
    · have hl : fb[py]? = none := List.getElem?_eq_none ((Frame.shaped_iff.mp hfb).1.symm ▸ Nat.not_lt.mp h)
      rw [drawRows_cons_of_none hl]
      have hrest : ∀ row col, row < height → bitOfRows (b :: bytes) ax py row col = bitOfRows bytes ax (py + 1) row col := by
        intro row col hrow
        rw [bitOfRows_cons, if_neg (by omega)]
      obtain ⟨ih1, ih2, ih3⟩ := ih (py + 1) hfb
      refine ⟨ih1, fun row col hrow hcol => by rw [ih2 row col hrow hcol, hrest row col hrow], ih3.trans ?_⟩
      exact exists_congr fun row => exists_congr fun col => and_congr_right fun hrow => by rw [hrest row col hrow]

/-- The bits of the sprite DRW reads (R182): row `r` is the byte at `I + r`. -/
theorem bitOfRows_readBytes (m : Memory) (base count ax py row col : Nat) :
    bitOfRows (m.readBytes base count) ax py row col =
      (decide (py ≤ row) && decide (row < py + count) && decide (ax ≤ col) && decide (col < ax + 8) &&
        (m.read (base + (row - py))).getLsbD (7 - (col - ax))) := by
  by_cases h1 : py ≤ row
  · by_cases h2 : row < py + count
    · simp [bitOfRows, h1, h2, Memory.getElem?_readBytes _ _ _ _ (show row - py < count by omega)]
    · have : (m.readBytes base count)[row - py]? = none := by simp; omega
      simp [bitOfRows, h2, this]
  · simp [bitOfRows, h1]

end Sys2Proof.Machine
end

