-- ==== Sys2Proof/Laws/Exec.lean ====
section
/-! SUPPORT. What `exec` answers for the instructions that can go two ways, in numbers, and what the engine's step is
once it is known to fetch. Proofs cite these and unfold no meaning. -/

namespace Sys2Proof.Machine

/-! ### CALL and RET -/

theorem exec_call_of_room {s : State} (nnn : Addr12) (h : s.sp.val < 16) :
    exec (.call nnn) s = .next ((s.push h s.pc).setPc (zextAddr nnn)) := by
  have h' : s.sp.val < Config.stackDepth := h
  simp only [exec, execCall, dif_pos h']

theorem exec_call_of_full {s : State} (nnn : Addr12) (h : s.sp.val = 16) :
    exec (.call nnn) s =
      .next { s with pc := s.pc - 2, fault := some ⟨.stackOverflow, s.pc - 2, zextAddr nnn⟩ } := by
  have h' : ¬ s.sp.val < Config.stackDepth := by simp [Config.stackDepth, h]
  simp only [exec, execCall, dif_neg h', raise_eq]

theorem exec_ret_of_held {s : State} (h : 0 < s.sp.val) :
    exec .ret s = .next ((s.pop h).2.setPc (s.pop h).1) := by
  simp only [exec, execRet, dif_pos h]

theorem exec_ret_of_empty {s : State} (h : s.sp.val = 0) :
    exec .ret s = .next { s with pc := s.pc - 2, fault := some ⟨.stackUnderflow, s.pc - 2, 0⟩ } := by
  have h' : ¬ 0 < s.sp.val := by omega
  simp only [exec, execRet, dif_neg h', raise_eq]

/-- The two ways CALL can go. -/
theorem exec_call_cases (nnn : Addr12) (s : State) :
    (∃ h : s.sp.val < 16, exec (.call nnn) s = .next ((s.push h s.pc).setPc (zextAddr nnn))) ∨
    (s.sp.val = 16 ∧ exec (.call nnn) s =
      .next { s with pc := s.pc - 2, fault := some ⟨.stackOverflow, s.pc - 2, zextAddr nnn⟩ }) := by
  rcases Nat.lt_or_eq_of_le (Nat.le_of_lt_succ s.sp.isLt) with h | h
  · exact .inl ⟨h, exec_call_of_room nnn h⟩
  · exact .inr ⟨h, exec_call_of_full nnn h⟩

/-- The two ways RET can go. -/
theorem exec_ret_cases (s : State) :
    (∃ h : 0 < s.sp.val, exec .ret s = .next ((s.pop h).2.setPc (s.pop h).1)) ∨
    (s.sp.val = 0 ∧ exec .ret s = .next { s with pc := s.pc - 2, fault := some ⟨.stackUnderflow, s.pc - 2, 0⟩ }) := by
  rcases Nat.eq_zero_or_pos s.sp.val with h | h
  · exact .inr ⟨h, exec_ret_of_empty h⟩
  · exact .inl ⟨h, exec_ret_of_held h⟩

/-! ### the instructions that address memory through `I` -/

/-- The state an out-of-range access leaves (R54, R227). -/
def rangeFaulted (s : State) : State :=
  { s with pc := s.pc - 2, fault := some ⟨.memOutOfBounds, s.pc - 2, lowestOutOfRange s.i⟩ }

theorem withRange_of_fits {count : Nat} {s : State} (go : Result) (h : s.i.toNat + count ≤ 4096) :
    withRange count s go = go :=
  withRange_of_inBounds go ((inBounds_iff _ _).mpr (.inr h))

theorem withRange_of_overruns {count : Nat} {s : State} (go : Result) (h0 : 0 < count) (h : 4096 < s.i.toNat + count) :
    withRange count s go = .next (rangeFaulted s) :=
  withRange_of_not_inBounds go ((inBounds_eq_false_iff _ _).mpr ⟨h0, h⟩)

theorem exec_ldBVx_of_fits {s : State} (x : Reg) (h : s.i.toNat + 2 < 4096) :
    exec (.ldBVx x) s = .next { s with mem := s.mem.writeBytes s.i.toNat (bcdDigits (s.reg x)) } :=
  withRange_of_fits _ (by omega)

theorem exec_ldBVx_of_overruns {s : State} (x : Reg) (h : 4096 ≤ s.i.toNat + 2) :
    exec (.ldBVx x) s = .next (rangeFaulted s) :=
  withRange_of_overruns _ (by omega) (by omega)

theorem exec_ldMemVx_of_fits {s : State} (x : Reg) (h : s.i.toNat + x.val < 4096) :
    exec (.ldMemVx x) s = .next { s with mem := s.mem.writeBytes s.i.toNat (savedBytes s x) } :=
  withRange_of_fits _ (by omega)

theorem exec_ldMemVx_of_overruns {s : State} (x : Reg) (h : 4096 ≤ s.i.toNat + x.val) :
    exec (.ldMemVx x) s = .next (rangeFaulted s) :=
  withRange_of_overruns _ (by omega) (by omega)

theorem exec_ldVxMem_of_fits {s : State} (x : Reg) (h : s.i.toNat + x.val < 4096) :
    exec (.ldVxMem x) s = .next { s with v := restoredRegs s x } :=
  withRange_of_fits _ (by omega)

theorem exec_ldVxMem_of_overruns {s : State} (x : Reg) (h : 4096 ≤ s.i.toNat + x.val) :
    exec (.ldVxMem x) s = .next (rangeFaulted s) :=
  withRange_of_overruns _ (by omega) (by omega)

/-- The state DRW leaves when it draws (R182). -/
def drawn (x y : Reg) (n : Fin 16) (s : State) : State :=
  { s with fb := (drawSprite s x y n).1 }.setReg vf (collisionFlag (drawSprite s x y n).2)

theorem exec_drw_of_fits {s : State} (x y : Reg) (n : Fin 16) (h : n.val = 0 ∨ s.i.toNat + n.val - 1 < 4096) :
    exec (.drw x y n) s = .next (drawn x y n s) :=
  withRange_of_inBounds _ ((inBounds_iff _ _).mpr (by simp only [Config.memSize]; omega))

theorem exec_drw_of_overruns {s : State} (x y : Reg) (n : Fin 16) (h0 : 1 ≤ n.val) (h : 4096 ≤ s.i.toNat + n.val - 1) :
    exec (.drw x y n) s = .next (rangeFaulted s) :=
  withRange_of_overruns _ (by omega) (by omega)

/-- The two ways LD B,Vx can go. -/
theorem exec_ldBVx_cases (x : Reg) (s : State) :
    (s.i.toNat + 2 < 4096 ∧
      exec (.ldBVx x) s = .next { s with mem := s.mem.writeBytes s.i.toNat (bcdDigits (s.reg x)) }) ∨
    (4096 ≤ s.i.toNat + 2 ∧ exec (.ldBVx x) s = .next (rangeFaulted s)) := by
  rcases Nat.lt_or_ge (s.i.toNat + 2) 4096 with h | h
  · exact .inl ⟨h, exec_ldBVx_of_fits x h⟩
  · exact .inr ⟨h, exec_ldBVx_of_overruns x h⟩

/-- The two ways LD [I],Vx can go. -/
theorem exec_ldMemVx_cases (x : Reg) (s : State) :
    (s.i.toNat + x.val < 4096 ∧
      exec (.ldMemVx x) s = .next { s with mem := s.mem.writeBytes s.i.toNat (savedBytes s x) }) ∨
    (4096 ≤ s.i.toNat + x.val ∧ exec (.ldMemVx x) s = .next (rangeFaulted s)) := by
  rcases Nat.lt_or_ge (s.i.toNat + x.val) 4096 with h | h
  · exact .inl ⟨h, exec_ldMemVx_of_fits x h⟩
  · exact .inr ⟨h, exec_ldMemVx_of_overruns x h⟩

/-- The two ways LD Vx,[I] can go. -/
theorem exec_ldVxMem_cases (x : Reg) (s : State) :
    (s.i.toNat + x.val < 4096 ∧ exec (.ldVxMem x) s = .next { s with v := restoredRegs s x }) ∨
    (4096 ≤ s.i.toNat + x.val ∧ exec (.ldVxMem x) s = .next (rangeFaulted s)) := by
  rcases Nat.lt_or_ge (s.i.toNat + x.val) 4096 with h | h
  · exact .inl ⟨h, exec_ldVxMem_of_fits x h⟩
  · exact .inr ⟨h, exec_ldVxMem_of_overruns x h⟩

/-- The two ways DRW can go. -/
theorem exec_drw_cases (x y : Reg) (n : Fin 16) (s : State) :
    ((n.val = 0 ∨ s.i.toNat + n.val - 1 < 4096) ∧ exec (.drw x y n) s = .next (drawn x y n s)) ∨
    ((1 ≤ n.val ∧ 4096 ≤ s.i.toNat + n.val - 1) ∧ exec (.drw x y n) s = .next (rangeFaulted s)) := by
  by_cases h : n.val = 0 ∨ s.i.toNat + n.val - 1 < 4096
  · exact .inl ⟨h, exec_drw_of_fits x y n h⟩
  · exact .inr ⟨by omega, exec_drw_of_overruns x y n (by omega) (by omega)⟩

/-- The bit DRW's sprite puts on a place of the screen (R182). -/
abbrev drawnBit (x y : Reg) (n : Fin 16) (s : State) (row col : Nat) : Bool :=
  spriteBit s.mem s.i.toNat n.val ((s.reg x).toNat % s.config.width) ((s.reg y).toNat % s.config.height) row col

/-- What DRW draws on a shaped framebuffer: the shape stays, every cell is XORed with the sprite bit on it, and it
collides exactly if some cell was 1 and a sprite bit falls on it (R182). -/
theorem drawSprite_spec (x y : Reg) (n : Fin 16) {s : State} (hs : s.fb.shaped s.config.width s.config.height = true) :
    (drawSprite s x y n).1.shaped s.config.width s.config.height = true ∧
    (∀ row col, row < s.config.height → col < s.config.width →
      (drawSprite s x y n).1.cell row col = (s.fb.cell row col ^^ drawnBit x y n s row col)) ∧
    ((drawSprite s x y n).2 = true ↔ ∃ row col, row < s.config.height ∧ col < s.config.width ∧
      s.fb.cell row col = true ∧ drawnBit x y n s row col = true) := by
  have h := drawRows_spec s.config.width ((s.reg x).toNat % s.config.width) ((s.reg y).toNat % s.config.height)
    (spriteBytes s n) hs
  simpa only [drawSprite, anchor, spriteBytes, bitOfRows_readBytes, spriteBit] using h

@[simp] theorem config_drawn (x y : Reg) (n : Fin 16) (s : State) : (drawn x y n s).config = s.config := rfl

@[simp] theorem fb_drawn (x y : Reg) (n : Fin 16) (s : State) : (drawn x y n s).fb = (drawSprite s x y n).1 := by
  simp [drawn]

@[simp] theorem vf_drawn (x y : Reg) (n : Fin 16) (s : State) :
    (drawn x y n s).reg vf = collisionFlag (drawSprite s x y n).2 := by simp [drawn]

/-! ### keys -/

theorem exec_skp_of_key {s : State} {x : Reg} {k : Fin 16} (h : (s.reg x).toNat = k.val) :
    exec (.skp x) s = .next (s.skipIf s.keys[k]) := withKey_of_eq _ h

theorem exec_sknp_of_key {s : State} {x : Reg} {k : Fin 16} (h : (s.reg x).toNat = k.val) :
    exec (.sknp x) s = .next (s.skipIf (!s.keys[k])) := withKey_of_eq _ h

/-- The value is one of the 16 keys, or above 15. -/
theorem key_or_noKey (x : Reg) (s : State) : (∃ k : Fin 16, (s.reg x).toNat = k.val) ∨ 15 < (s.reg x).toNat := by
  rcases Nat.lt_or_ge (s.reg x).toNat 16 with h | h
  · exact .inl ⟨⟨_, h⟩, rfl⟩
  · exact .inr h

/-- The state a key index above 15 leaves (R200, R202). -/
def keyFaulted (s : State) (x : Reg) : State :=
  { s with pc := s.pc - 2, fault := some ⟨.keyIndexOutOfRange, s.pc - 2, zextByte (s.reg x)⟩ }

theorem exec_skp_of_noKey {s : State} {x : Reg} (h : 15 < (s.reg x).toNat) :
    exec (.skp x) s = .next (keyFaulted s x) := withKey_of_gt _ h

theorem exec_sknp_of_noKey {s : State} {x : Reg} (h : 15 < (s.reg x).toNat) :
    exec (.sknp x) s = .next (keyFaulted s x) := withKey_of_gt _ h

/-- The two ways SKP can go. -/
theorem exec_skp_cases (x : Reg) (s : State) :
    (∃ k : Fin 16, (s.reg x).toNat = k.val ∧ exec (.skp x) s = .next (s.skipIf s.keys[k])) ∨
    (15 < (s.reg x).toNat ∧ exec (.skp x) s = .next (keyFaulted s x)) :=
  (key_or_noKey x s).imp (fun ⟨k, h⟩ => ⟨k, h, exec_skp_of_key h⟩) (fun h => ⟨h, exec_skp_of_noKey h⟩)

/-- The two ways SKNP can go. -/
theorem exec_sknp_cases (x : Reg) (s : State) :
    (∃ k : Fin 16, (s.reg x).toNat = k.val ∧ exec (.sknp x) s = .next (s.skipIf (!s.keys[k]))) ∨
    (15 < (s.reg x).toNat ∧ exec (.sknp x) s = .next (keyFaulted s x)) :=
  (key_or_noKey x s).imp (fun ⟨k, h⟩ => ⟨k, h, exec_sknp_of_key h⟩) (fun h => ⟨h, exec_sknp_of_noKey h⟩)

theorem exec_ldVxK_of_pressed {s : State} (x : Reg) {k : Fin 16} (hk : s.keys[k] = true)
    (hj : ∀ j : Fin 16, j.val < k.val → s.keys[j] = false) :
    exec (.ldVxK x) s = .next (s.setReg x (BitVec.ofNat 8 k.val)) := by
  have h : firstPressed s = some k.val := (firstPressed_eq_some_iff s k.val).mpr ⟨k.isLt, hk, hj⟩
  simp only [exec, execLdVxK, h]

theorem exec_ldVxK_of_none {s : State} (x : Reg) (h : ∀ k : Fin 16, s.keys[k] = false) :
    exec (.ldVxK x) s = .next (s.setPc (s.pc - 2)) := by
  simp only [exec, execLdVxK, (firstPressed_eq_none_iff s).mpr h]

/-- The two ways LD Vx,K can go. -/
theorem exec_ldVxK_cases (x : Reg) (s : State) :
    (∃ k : Fin 16, s.keys[k] = true ∧ (∀ j : Fin 16, j.val < k.val → s.keys[j] = false) ∧
      exec (.ldVxK x) s = .next (s.setReg x (BitVec.ofNat 8 k.val))) ∨
    ((∀ k : Fin 16, s.keys[k] = false) ∧ exec (.ldVxK x) s = .next (s.setPc (s.pc - 2))) := by
  cases h : firstPressed s with
  | none =>
    have h' := (firstPressed_eq_none_iff s).mp h
    exact .inr ⟨h', exec_ldVxK_of_none x h'⟩
  | some k =>
    obtain ⟨hk, hp, hj⟩ := (firstPressed_eq_some_iff s k).mp h
    exact .inl ⟨⟨k, hk⟩, hp, hj, exec_ldVxK_of_pressed x (k := ⟨k, hk⟩) hp hj⟩

/-! ### every instruction -/

/-- No instruction stops the model: `exec` answers a next state. -/
theorem exec_total (i : Instr) (s : State) : ∃ t, exec i s = .next t := by
  cases i with
  | call nnn => rcases exec_call_cases nnn s with ⟨_, h⟩ | ⟨_, h⟩ <;> exact ⟨_, h⟩
  | ret => rcases exec_ret_cases s with ⟨_, h⟩ | ⟨_, h⟩ <;> exact ⟨_, h⟩
  | drw x y n => rcases exec_drw_cases x y n s with ⟨_, h⟩ | ⟨_, h⟩ <;> exact ⟨_, h⟩
  | ldBVx x => rcases exec_ldBVx_cases x s with ⟨_, h⟩ | ⟨_, h⟩ <;> exact ⟨_, h⟩
  | ldMemVx x => rcases exec_ldMemVx_cases x s with ⟨_, h⟩ | ⟨_, h⟩ <;> exact ⟨_, h⟩
  | ldVxMem x => rcases exec_ldVxMem_cases x s with ⟨_, h⟩ | ⟨_, h⟩ <;> exact ⟨_, h⟩
  | skp x => rcases exec_skp_cases x s with ⟨_, _, h⟩ | ⟨_, h⟩ <;> exact ⟨_, h⟩
  | sknp x => rcases exec_sknp_cases x s with ⟨_, _, h⟩ | ⟨_, h⟩ <;> exact ⟨_, h⟩
  | ldVxK x => rcases exec_ldVxK_cases x s with ⟨_, _, _, h⟩ | ⟨_, h⟩ <;> exact ⟨_, h⟩
  | _ => exact ⟨_, rfl⟩

/-- What no instruction touches, and the one shape a fault takes: `pc` back and the latch set, nothing else (R221). -/
theorem exec_frame {i : Instr} {s t : State} (h : exec i s = .next t) :
    t.config = s.config ∧ t.agenda = s.agenda ∧ t.keys = s.keys ∧
    (t.fault = s.fault ∨ ∃ c info, t = { s with pc := s.pc - 2, fault := some ⟨c, s.pc - 2, info⟩ }) := by
  cases i with
  | call nnn =>
    rcases exec_call_cases nnn s with ⟨_, h'⟩ | ⟨_, h'⟩ <;> rw [h'] at h <;> cases h
    exacts [⟨rfl, rfl, rfl, .inl rfl⟩, ⟨rfl, rfl, rfl, .inr ⟨_, _, rfl⟩⟩]
  | ret =>
    rcases exec_ret_cases s with ⟨_, h'⟩ | ⟨_, h'⟩ <;> rw [h'] at h <;> cases h
    exacts [⟨rfl, rfl, rfl, .inl rfl⟩, ⟨rfl, rfl, rfl, .inr ⟨_, _, rfl⟩⟩]
  | drw x y n =>
    rcases exec_drw_cases x y n s with ⟨_, h'⟩ | ⟨_, h'⟩ <;> rw [h'] at h <;> cases h
    exacts [⟨rfl, rfl, rfl, .inl rfl⟩, ⟨rfl, rfl, rfl, .inr ⟨_, _, rfl⟩⟩]
  | ldBVx x =>
    rcases exec_ldBVx_cases x s with ⟨_, h'⟩ | ⟨_, h'⟩ <;> rw [h'] at h <;> cases h
    exacts [⟨rfl, rfl, rfl, .inl rfl⟩, ⟨rfl, rfl, rfl, .inr ⟨_, _, rfl⟩⟩]
  | ldMemVx x =>
    rcases exec_ldMemVx_cases x s with ⟨_, h'⟩ | ⟨_, h'⟩ <;> rw [h'] at h <;> cases h
    exacts [⟨rfl, rfl, rfl, .inl rfl⟩, ⟨rfl, rfl, rfl, .inr ⟨_, _, rfl⟩⟩]
  | ldVxMem x =>
    rcases exec_ldVxMem_cases x s with ⟨_, h'⟩ | ⟨_, h'⟩ <;> rw [h'] at h <;> cases h
    exacts [⟨rfl, rfl, rfl, .inl rfl⟩, ⟨rfl, rfl, rfl, .inr ⟨_, _, rfl⟩⟩]
  | skp x =>
    rcases exec_skp_cases x s with ⟨_, _, h'⟩ | ⟨_, h'⟩ <;> rw [h'] at h <;> cases h
    exacts [by simp, ⟨rfl, rfl, rfl, .inr ⟨_, _, rfl⟩⟩]
  | sknp x =>
    rcases exec_sknp_cases x s with ⟨_, _, h'⟩ | ⟨_, h'⟩ <;> rw [h'] at h <;> cases h
    exacts [by simp, ⟨rfl, rfl, rfl, .inr ⟨_, _, rfl⟩⟩]
  | ldVxK x =>
    rcases exec_ldVxK_cases x s with ⟨_, _, _, h'⟩ | ⟨_, h'⟩ <;> rw [h'] at h <;> cases h <;>
      exact ⟨rfl, rfl, rfl, .inl rfl⟩
  | _ => cases h; simp

/-- The table of faults reads four elements of state. -/
theorem faultOf_congr (i : Instr) {s t : State} (hv : t.v = s.v) (hi : t.i = s.i) (hp : t.pc = s.pc) (hs : t.sp = s.sp) :
    faultOf i t = faultOf i s := by
  have hr : ∀ r, t.reg r = s.reg r := fun r => by rw [State.reg, State.reg, hv]
  cases i <;> simp only [faultOf, hr, hi, hp, hs]

/-! ### the engine's step -/

theorem popTurn_eq (s : State) : popTurn s = { s with agenda := s.agenda.tail } := rfl

theorem step_of_enginesTurn {s : State} (h : enginesTurn s = true) : step s = engineStep (popTurn s) := by
  unfold enginesTurn at h
  unfold step
  cases ha : s.agenda with
  | nil => rfl
  | cons turn rest =>
    rw [ha] at h
    obtain rfl : turn = .engine := by simpa using h
    rfl

theorem opcodeAt_eq {m : Memory} {a : Nat} {op : Word} (h : op.toNat = (m.read a).toNat * 256 + (m.read (a + 1)).toNat) :
    opcodeAt m a = op := by
  apply BitVec.eq_of_toNat_eq
  rw [opcodeAt, opcodeOfBytes_toNat, h]

theorem engineStep_of_fetch {s : State} (hf : s.fault = none) (hpc : s.pc.toNat ≤ 4094) :
    engineStep s = exec (decode (opcodeAt s.mem s.pc.toNat)) (s.setPc (s.pc + 2)) := by
  have h : fetchInBounds s.pc = true := by simpa [fetchInBounds, Config.memSize] using hpc
  simp [engineStep, hf, h]

theorem engineStep_of_noFetch {s : State} (hf : s.fault = none) (hpc : 4094 < s.pc.toNat) :
    engineStep s = .next { s with fault := some ⟨.fetchOutOfBounds, s.pc, s.pc⟩ } := by
  have h : fetchInBounds s.pc = false := by simp [fetchInBounds, Config.memSize]; omega
  simp [engineStep, hf, h, takeFault_eq]

theorem engineStep_of_halted {s : State} {r : FaultRecord} (hf : s.fault = some r) :
    engineStep s = .fault (.halted r) := by simp [engineStep, hf]

end Sys2Proof.Machine
end

