-- ==== Sys2Proof/Laws/PerInstr.lean ====
section
/-! SUPPORT. A statement made of every instruction: its own opcode selects its own row of the opcode map. -/

namespace Sys2Proof.Laws.RowBits

/-- The mask and the match of an instruction's row (spec/30_encoding.md R76). -/
def row : Instr → Word × Word
  | .cls => (0xF0FF, 0x00E0)
  | .ret => (0xF0FF, 0x00EE)
  | .sys _ => (0xF000, 0x0000)
  | .jp _ => (0xF000, 0x1000)
  | .call _ => (0xF000, 0x2000)
  | .seByte _ _ => (0xF000, 0x3000)
  | .sneByte _ _ => (0xF000, 0x4000)
  | .seReg _ _ => (0xF000, 0x5000)
  | .ldByte _ _ => (0xF000, 0x6000)
  | .addByte _ _ => (0xF000, 0x7000)
  | .ldReg _ _ => (0xF00F, 0x8000)
  | .orReg _ _ => (0xF00F, 0x8001)
  | .andReg _ _ => (0xF00F, 0x8002)
  | .xorReg _ _ => (0xF00F, 0x8003)
  | .addReg _ _ => (0xF00F, 0x8004)
  | .subReg _ _ => (0xF00F, 0x8005)
  | .shr _ => (0xF00F, 0x8006)
  | .subnReg _ _ => (0xF00F, 0x8007)
  | .shl _ => (0xF00F, 0x800E)
  | .sneReg _ _ => (0xF000, 0x9000)
  | .ldI _ => (0xF000, 0xA000)
  | .jpV0 _ => (0xF000, 0xB000)
  | .rnd _ _ => (0xF000, 0xC000)
  | .drw _ _ _ => (0xF000, 0xD000)
  | .skp _ => (0xF0FF, 0xE09E)
  | .sknp _ => (0xF0FF, 0xE0A1)
  | .ldVxDT _ => (0xF0FF, 0xF007)
  | .ldVxK _ => (0xF0FF, 0xF00A)
  | .ldDTVx _ => (0xF0FF, 0xF015)
  | .ldSTVx _ => (0xF0FF, 0xF018)
  | .addIVx _ => (0xF0FF, 0xF01E)
  | .ldFVx _ => (0xF0FF, 0xF029)
  | .ldBVx _ => (0xF0FF, 0xF033)
  | .ldMemVx _ => (0xF0FF, 0xF055)
  | .ldVxMem _ => (0xF0FF, 0xF065)
  | .nop => (0x0000, 0x0000)

/-- `op & mask = match` holds of the opcode the encoder gives and the row R76 gives. -/
def Statement (i : Instr) : Prop := selects (encode i) (row i).1 (row i).2 = true

/-- A format `A` opcode carries its group. -/
theorem formatA_selects (g : BitVec 4) (nnn : Addr12) (p : Word) (hp : p.toNat = g.toNat * 4096) :
    selects (formatA g nnn) 0xF000 p = true := by
  have := nnn.isLt
  rw [selects_group_iff _ p g.toNat hp, formatA_toNat]
  omega

/-- A format `XK` opcode carries its group. -/
theorem formatXK_selects (g : BitVec 4) (x : Reg) (kk : Byte) (p : Word) (hp : p.toNat = g.toNat * 4096) :
    selects (formatXK g x kk) 0xF000 p = true := by
  have := x.isLt; have := kk.isLt
  rw [selects_group_iff _ p g.toNat hp, formatXK_toNat]
  omega

/-- A format `XS` opcode carries its group and its low byte. -/
theorem formatXS_selects (g : BitVec 4) (x : Reg) (b : Byte) (p : Word) (hp : p.toNat = g.toNat * 4096 + b.toNat) :
    selects (formatXK g x b) 0xF0FF p = true := by
  have := x.isLt; have := b.isLt
  rw [selects_lowByte_iff _ p g.toNat b.toNat hp b.isLt, formatXK_toNat]
  omega

/-- A format `XYS` or `XYN` opcode carries its group. -/
theorem formatXY_selects (g : BitVec 4) (x y : Reg) (low : BitVec 4) (p : Word) (hp : p.toNat = g.toNat * 4096) :
    selects (formatXY g x y low) 0xF000 p = true := by
  have := x.isLt; have := y.isLt; have := low.isLt
  rw [selects_group_iff _ p g.toNat hp, formatXY_toNat]
  omega

/-- A group-8 opcode carries its group and its low nibble. -/
theorem formatXYS_selects (g : BitVec 4) (x y : Reg) (low : BitVec 4) (p : Word)
    (hp : p.toNat = g.toNat * 4096 + low.toNat) : selects (formatXY g x y low) 0xF00F p = true := by
  have := x.isLt; have := y.isLt; have := low.isLt
  rw [selects_lowNibble_iff _ p g.toNat low.toNat hp low.isLt, formatXY_toNat]
  omega

theorem cls : Statement .cls := rfl
theorem ret : Statement .ret := rfl
theorem sys (nnn : Addr12) : Statement (.sys nnn) := formatA_selects _ nnn _ rfl
theorem jp (nnn : Addr12) : Statement (.jp nnn) := formatA_selects _ nnn _ rfl
theorem call (nnn : Addr12) : Statement (.call nnn) := formatA_selects _ nnn _ rfl
theorem seByte (x : Reg) (kk : Byte) : Statement (.seByte x kk) := formatXK_selects _ x kk _ rfl
theorem sneByte (x : Reg) (kk : Byte) : Statement (.sneByte x kk) := formatXK_selects _ x kk _ rfl
theorem seReg (x y : Reg) : Statement (.seReg x y) := formatXY_selects _ x y _ _ rfl
theorem ldByte (x : Reg) (kk : Byte) : Statement (.ldByte x kk) := formatXK_selects _ x kk _ rfl
theorem addByte (x : Reg) (kk : Byte) : Statement (.addByte x kk) := formatXK_selects _ x kk _ rfl
theorem ldReg (x y : Reg) : Statement (.ldReg x y) := formatXYS_selects _ x y _ _ rfl
theorem orReg (x y : Reg) : Statement (.orReg x y) := formatXYS_selects _ x y _ _ rfl
theorem andReg (x y : Reg) : Statement (.andReg x y) := formatXYS_selects _ x y _ _ rfl
theorem xorReg (x y : Reg) : Statement (.xorReg x y) := formatXYS_selects _ x y _ _ rfl
theorem addReg (x y : Reg) : Statement (.addReg x y) := formatXYS_selects _ x y _ _ rfl
theorem subReg (x y : Reg) : Statement (.subReg x y) := formatXYS_selects _ x y _ _ rfl
theorem shr (x : Reg) : Statement (.shr x) := formatXYS_selects _ x 0 _ _ rfl
theorem subnReg (x y : Reg) : Statement (.subnReg x y) := formatXYS_selects _ x y _ _ rfl
theorem shl (x : Reg) : Statement (.shl x) := formatXYS_selects _ x 0 _ _ rfl
theorem sneReg (x y : Reg) : Statement (.sneReg x y) := formatXY_selects _ x y _ _ rfl
theorem ldI (nnn : Addr12) : Statement (.ldI nnn) := formatA_selects _ nnn _ rfl
theorem jpV0 (nnn : Addr12) : Statement (.jpV0 nnn) := formatA_selects _ nnn _ rfl
theorem rnd (x : Reg) (kk : Byte) : Statement (.rnd x kk) := formatXK_selects _ x kk _ rfl
theorem drw (x y : Reg) (n : Fin 16) : Statement (.drw x y n) := formatXY_selects _ x y _ _ rfl
theorem skp (x : Reg) : Statement (.skp x) := formatXS_selects _ x _ _ rfl
theorem sknp (x : Reg) : Statement (.sknp x) := formatXS_selects _ x _ _ rfl
theorem ldVxDT (x : Reg) : Statement (.ldVxDT x) := formatXS_selects _ x _ _ rfl
theorem ldVxK (x : Reg) : Statement (.ldVxK x) := formatXS_selects _ x _ _ rfl
theorem ldDTVx (x : Reg) : Statement (.ldDTVx x) := formatXS_selects _ x _ _ rfl
theorem ldSTVx (x : Reg) : Statement (.ldSTVx x) := formatXS_selects _ x _ _ rfl
theorem addIVx (x : Reg) : Statement (.addIVx x) := formatXS_selects _ x _ _ rfl
theorem ldFVx (x : Reg) : Statement (.ldFVx x) := formatXS_selects _ x _ _ rfl
theorem ldBVx (x : Reg) : Statement (.ldBVx x) := formatXS_selects _ x _ _ rfl
theorem ldMemVx (x : Reg) : Statement (.ldMemVx x) := formatXS_selects _ x _ _ rfl
theorem ldVxMem (x : Reg) : Statement (.ldVxMem x) := formatXS_selects _ x _ _ rfl
theorem nop : Statement .nop := rfl

end Sys2Proof.Laws.RowBits
end

