-- ==== Sys2Proof/Tests/Slice0.lean ====
section
/-! SUPPORT. Tests and witnesses. Expected values are those of spec/95_test_vectors.md (their names in the comments),
or worked out by hand from the rules. -/

namespace Sys2Proof.Tests
open Sys2Proof Sys2Proof.Machine

/-! ### WellFormed: a SYS whose low byte is that of CLS or RET has no opcode of its own (R102) -/

theorem test_wellFormed_refuses_sys_with_low_byte_E0 : (Instr.sys 0x0E0).wellFormed = false := by decide
theorem test_wellFormed_refuses_sys_with_low_byte_EE : (Instr.sys 0xFEE).wellFormed = false := by decide
theorem test_wellFormed_accepts_its_neighbours :
    (Instr.sys 0x0E1).wellFormed = true ∧ (Instr.sys 0x0EF).wellFormed = true ∧ (Instr.sys 0x000).wellFormed = true := by decide

/-! ### Decode: a word of every constructor (95 section 2.1) -/

theorem test_decode_group_0 :
    decode 0x0000 = .sys 0x000 ∧ decode 0x00E0 = .cls ∧ decode 0x01E0 = .cls ∧ decode 0x00EE = .ret ∧
    decode 0x0FEE = .ret ∧ decode 0x00E1 = .sys 0x0E1 ∧ decode 0x0123 = .sys 0x123 := by decide
theorem test_decode_addresses :
    decode 0x1234 = .jp 0x234 ∧ decode 0x2FFF = .call 0xFFF ∧ decode 0xA123 = .ldI 0x123 ∧ decode 0xB123 = .jpV0 0x123 := by
  decide
theorem test_decode_immediates :
    decode 0x3A12 = .seByte 0xA 0x12 ∧ decode 0x4A12 = .sneByte 0xA 0x12 ∧ decode 0x6A12 = .ldByte 0xA 0x12 ∧
    decode 0x7A12 = .addByte 0xA 0x12 ∧ decode 0xCA12 = .rnd 0xA 0x12 := by decide
theorem test_decode_register_skips :
    decode 0x5AB0 = .seReg 0xA 0xB ∧ decode 0x5ABF = .seReg 0xA 0xB ∧ decode 0x9AB0 = .sneReg 0xA 0xB ∧
    decode 0x9AB5 = .sneReg 0xA 0xB := by decide
theorem test_decode_group_8 :
    decode 0x8AB0 = .ldReg 0xA 0xB ∧ decode 0x8AB1 = .orReg 0xA 0xB ∧ decode 0x8AB2 = .andReg 0xA 0xB ∧
    decode 0x8AB3 = .xorReg 0xA 0xB ∧ decode 0x8AB4 = .addReg 0xA 0xB ∧ decode 0x8AB5 = .subReg 0xA 0xB ∧
    decode 0x8AB6 = .shr 0xA ∧ decode 0x8AB7 = .subnReg 0xA 0xB ∧ decode 0x8ABE = .shl 0xA := by decide
theorem test_decode_draw : decode 0xDAB5 = .drw 0xA 0xB 5 ∧ decode 0xDAB0 = .drw 0xA 0xB 0 := by decide
theorem test_decode_group_E : decode 0xEA9E = .skp 0xA ∧ decode 0xEAA1 = .sknp 0xA := by decide
theorem test_decode_group_F :
    decode 0xFA07 = .ldVxDT 0xA ∧ decode 0xFA0A = .ldVxK 0xA ∧ decode 0xFA15 = .ldDTVx 0xA ∧ decode 0xFA18 = .ldSTVx 0xA ∧
    decode 0xFA1E = .addIVx 0xA ∧ decode 0xFA29 = .ldFVx 0xA ∧ decode 0xFA33 = .ldBVx 0xA ∧ decode 0xFA55 = .ldMemVx 0xA ∧
    decode 0xFA65 = .ldVxMem 0xA := by decide
theorem test_decode_fallback :
    decode 0x8AB8 = .nop ∧ decode 0x8ABD = .nop ∧ decode 0x8ABF = .nop ∧ decode 0xEA9F = .nop ∧ decode 0xEA00 = .nop ∧
    decode 0xEAFF = .nop ∧ decode 0xFA00 = .nop ∧ decode 0xFA75 = .nop ∧ decode 0xFAFF = .nop ∧ decode 0xFFFF = .nop := by
  decide
/-- R55: the byte at the lower address is the high half. -/
theorem test_decodeBytes_is_high_byte_first :
    decodeBytes [0x12, 0x34, 0x56] = .ok (.jp 0x234, [0x56]) ∧ decodeBytes [0x12] = .error .truncated ∧
    decodeBytes [] = .error .truncated := by decide
theorem test_decodeTableWord :
    decodeTableWord 16 0x6A12 = some (.ldByte 0xA 0x12) ∧ decodeTableWord 8 0x6A12 = some (.sys 0x012) := by decide
theorem test_encode_writes_the_rows :
    encode (.call 0x300) = 0x2300 ∧ encode (.ldByte 0 5) = 0x6005 ∧ encode (.subnReg 1 2) = 0x8127 ∧ encode (.shl 3) = 0x830E ∧
    encode (.drw 1 2 5) = 0xD125 ∧ encode (.ldVxMem 0xF) = 0xFF65 := by decide

/-! ### One step on a small state. `runs op s check`: the step that fetches `op` in `s` gives a next state that meets
the check. -/

def runs (op : Nat) (s : State) (check : State → Bool) : Bool :=
  match step (s.withFetchWord 16 op) with
  | .next t => check t
  | .fault _ => false
  | .refused _ => false

/-- Reset, then some registers. -/
def regs (vs : List (Reg × Byte)) : State := vs.foldl (fun s r => s.setReg r.1 r.2) State.reset

/-- Reset, then some bytes of memory. -/
def bytes (a : Nat) (bs : List Byte) (s : State) : State := { s with mem := s.mem.writeBytes a bs }

/-- The framebuffer with the top-left cell lit and no other. -/
def cornerLit : Frame := State.reset.fb.set 0 (true :: List.replicate 63 false)

/-- A machine with another screen, font address and start: 8 columns, 3 rows, font at 0x050, start at 0x600. -/
def smallConfig : Config := { Config.default with width := 8, height := 3, fontBase := 0x050, romStart := 0x600 }

/-- The latch holds this record. -/
def faulted (c : Cause) (fpc info : Word) (t : State) : Bool := decide (t.fault = some ⟨c, fpc, info⟩) && t.pc == fpc

-- 95 section 2.2
theorem test_ldByte : runs 0x62AB (regs []) (fun t => t.reg 2 == 0xAB && t.pc == 0x202) = true := by decide
theorem test_addByte_wraps_without_flag :
    runs 0x7202 (regs [(2, 0xFF), (15, 0x77)]) (fun t => t.reg 2 == 0x01 && t.reg 15 == 0x77) = true := by decide
theorem test_addByte_into_vf : runs 0x7F03 (regs [(15, 0xFE)]) (fun t => t.reg 15 == 0x01) = true := by decide
theorem test_ldReg : runs 0x8120 (regs [(1, 0xF0), (2, 0x3C), (15, 0x77)]) (fun t => t.reg 1 == 0x3C && t.reg 15 == 0x77) = true := by
  decide
theorem test_orReg : runs 0x8121 (regs [(1, 0xF0), (2, 0x3C), (15, 0x77)]) (fun t => t.reg 1 == 0xFC && t.reg 15 == 0x77) = true := by
  decide
theorem test_andReg : runs 0x8122 (regs [(1, 0xF0), (2, 0x3C), (15, 0x77)]) (fun t => t.reg 1 == 0x30 && t.reg 15 == 0x77) = true := by
  decide
theorem test_xorReg : runs 0x8123 (regs [(1, 0xF0), (2, 0x3C), (15, 0x77)]) (fun t => t.reg 1 == 0xCC && t.reg 15 == 0x77) = true := by
  decide
theorem test_addReg_carries : runs 0x8124 (regs [(1, 0xC8), (2, 0x64)]) (fun t => t.reg 1 == 0x2C && t.reg 15 == 1) = true := by decide
theorem test_addReg_from_vf : runs 0x81F4 (regs [(1, 0x03), (15, 0x05)]) (fun t => t.reg 1 == 0x08 && t.reg 15 == 0) = true := by decide
theorem test_subReg_of_equals : runs 0x8125 (regs [(1, 0x80), (2, 0x80)]) (fun t => t.reg 1 == 0 && t.reg 15 == 0) = true := by decide
theorem test_subReg_into_vf : runs 0x8F25 (regs [(15, 0xF0), (2, 0x20)]) (fun t => t.reg 15 == 1) = true := by decide
theorem test_shr_ignores_y :
    runs 0x8126 (regs [(1, 0x81), (2, 0x33)]) (fun t => t.reg 1 == 0x40 && t.reg 15 == 1 && t.reg 2 == 0x33) = true := by decide
theorem test_subnReg_of_equals : runs 0x8127 (regs [(1, 0x01), (2, 0x01)]) (fun t => t.reg 1 == 0 && t.reg 15 == 1) = true := by decide
theorem test_subnReg_wraps : runs 0x8127 (regs [(1, 0xC8), (2, 0x64)]) (fun t => t.reg 1 == 0x9C && t.reg 15 == 0) = true := by decide
theorem test_shl_is_no_rotate : runs 0x812E (regs [(1, 0x81), (2, 0x33)]) (fun t => t.reg 1 == 0x02 && t.reg 15 == 1) = true := by decide
/-- Whatever the draw, a mask of 0 gives 0. -/
theorem test_rnd_masks (s : State) :
    ∃ t, exec (.rnd 3 0x00) s = .next t ∧ t.reg 3 = 0 ∧ t.draws = s.draws + 1 :=
  ⟨_, rfl, by simp [State.reg, State.setReg], rfl⟩

-- 95 section 2.3
theorem test_jp : runs 0x1ABC (regs []) (fun t => t.pc == 0x0ABC) = true := by decide
theorem test_call_to_the_last_slot :
    runs 0x2300 { State.reset with pc := 0x202, sp := 15 }
      (fun t => t.stack[15] == 0x204 && t.sp == 16 && t.pc == 0x300) = true := by decide
theorem test_call_overflows :
    runs 0x2300 { State.reset with pc := 0x202, sp := 16 } (faulted .stackOverflow 0x202 0x300) = true := by decide
theorem test_ret :
    runs 0x00EE { State.reset with pc := 0x300, sp := 1, stack := State.reset.stack.set 0 0x204 }
      (fun t => t.sp == 0 && t.pc == 0x204 && t.stack[0] == 0x204) = true := by decide
theorem test_ret_underflows : runs 0x00EE { State.reset with pc := 0x300 } (faulted .stackUnderflow 0x300 0) = true := by decide
theorem test_seByte_skips : runs 0x332A (regs [(3, 0x2A)]) (fun t => t.pc == 0x204) = true := by decide
theorem test_seByte_stays : runs 0x332A (regs [(3, 0x2B)]) (fun t => t.pc == 0x202) = true := by decide
theorem test_sneByte_stays : runs 0x432A (regs [(3, 0x2A)]) (fun t => t.pc == 0x202) = true := by decide
theorem test_sneByte_skips : runs 0x432A (regs [(3, 0x2B)]) (fun t => t.pc == 0x204) = true := by decide
theorem test_seReg_skips : runs 0x5120 (regs [(1, 7), (2, 7)]) (fun t => t.pc == 0x204) = true := by decide
theorem test_seReg_stays : runs 0x5120 (regs [(1, 7), (2, 8)]) (fun t => t.pc == 0x202) = true := by decide
theorem test_sneReg_skips : runs 0x9120 (regs [(1, 7), (2, 8)]) (fun t => t.pc == 0x204) = true := by decide
theorem test_sneReg_stays : runs 0x9120 (regs [(1, 7), (2, 7)]) (fun t => t.pc == 0x202) = true := by decide
theorem test_jpV0_is_not_reduced : runs 0xBFFF (regs [(0, 0xFF)]) (fun t => t.pc == 0x10FE) = true := by decide
theorem test_nop : runs 0x8128 (regs [(1, 1), (2, 2)]) (fun t => t.pc == 0x202 && t.reg 1 == 1 && t.reg 15 == 0) = true := by decide
theorem test_sys : runs 0x0123 (regs []) (fun t => t.pc == 0x202) = true := by decide
theorem test_fetch_at_the_last_byte : runs 0x0000 { State.reset with pc := 0xFFF } (faulted .fetchOutOfBounds 0xFFF 0xFFF) = true := by
  decide
theorem test_fetch_at_an_odd_pc :
    runs 0x6A12 { State.reset with pc := 0x201 } (fun t => t.reg 0xA == 0x12 && t.pc == 0x203) = true := by decide

-- 95 section 2.4
theorem test_ldI : runs 0xA2F0 (regs []) (fun t => t.i == 0x02F0) = true := by decide
theorem test_addIVx_passes_memory :
    runs 0xF21E { regs [(2, 1), (15, 0x77)] with i := 0xFFF } (fun t => t.i == 0x1000 && t.reg 15 == 0x77) = true := by decide
theorem test_addIVx_wraps : runs 0xF21E { regs [(2, 2)] with i := 0xFFFF } (fun t => t.i == 0x0001) = true := by decide
theorem test_ldFVx_takes_the_low_nibble : runs 0xF429 (regs [(4, 0xFB)]) (fun t => t.i == 0x0037) = true := by decide
theorem test_ldBVx :
    runs 0xF333 { regs [(3, 0x9C)] with i := 0x300 }
      (fun t => t.mem.read 0x300 == 1 && t.mem.read 0x301 == 5 && t.mem.read 0x302 == 6) = true := by decide
theorem test_ldBVx_out_of_range :
    runs 0xF333 { regs [(3, 7)] with i := 0xFFE } (fun t => faulted .memOutOfBounds 0x200 0x1000 t && t.mem.read 0xFFF == 0) = true := by
  decide
theorem test_ldMemVx :
    runs 0xF255 { bytes 0x403 [0x99] (regs [(0, 0x11), (1, 0x22), (2, 0x33)]) with i := 0x400 }
      (fun t => t.mem.readBytes 0x400 4 == [0x11, 0x22, 0x33, 0x99] && t.i == 0x400) = true := by decide
theorem test_ldMemVx_stores_no_part :
    runs 0xF155 { regs [(0, 0x11), (1, 0x22)] with i := 0xFFF }
      (fun t => faulted .memOutOfBounds 0x200 0x1000 t && t.mem.read 0xFFF == 0) = true := by decide
theorem test_ldVxMem :
    runs 0xF165 { bytes 0x400 [0xAA, 0xBB, 0xCC] (regs [(2, 0x99)]) with i := 0x400 }
      (fun t => t.reg 0 == 0xAA && t.reg 1 == 0xBB && t.reg 2 == 0x99 && t.i == 0x400) = true := by decide
theorem test_ldVxMem_out_of_range :
    runs 0xF065 { State.reset with i := 0x2345 } (faulted .memOutOfBounds 0x200 0x2345) = true := by decide

-- 95 section 2.5
/-- DR1: glyph 0 in the corner, clipped on both sides. -/
theorem test_drw_clips :
    runs 0xD125 (bytes 0 [0xF0, 0x90, 0x90, 0x90, 0xF0] (regs [(1, 62), (2, 30)]))
      (fun t => t.fb.cell 30 62 && t.fb.cell 30 63 && t.fb.cell 31 62 && !t.fb.cell 31 63 && !t.fb.cell 0 0 && t.reg 15 == 0) = true := by
  decide
/-- DR6: one lit cell drawn over. -/
theorem test_drw_collides :
    runs 0xD341 { bytes 0x300 [0x80] State.reset with i := 0x300, fb := cornerLit }
      (fun t => t.fb == State.reset.fb && t.reg 15 == 1) = true := by decide
/-- On a screen of 8 by 3: anchor (66 mod 8, 4 mod 3), one row, clipped after column 7. -/
theorem test_drw_on_a_small_screen :
    runs 0xD121 { bytes 0x300 [0xFF] { State.resetWith smallConfig with i := 0x300 } with v := (regs [(1, 66), (2, 4)]).v }
      (fun t => t.fb == [List.replicate 8 false, [false, false, true, true, true, true, true, true],
        List.replicate 8 false] && t.reg 15 == 0) = true := by decide
theorem test_cls :
    runs 0x00E0 { regs [(15, 0x77)] with fb := cornerLit }
      (fun t => t.fb == State.reset.fb && t.reg 15 == 0x77) = true := by decide

-- 95 section 2.6
theorem test_skp :
    runs 0xE59E { regs [(5, 10)] with keys := State.reset.keys.set 10 true } (fun t => t.pc == 0x204) = true := by decide
theorem test_skp_does_not_mask : runs 0xE59E (regs [(5, 0x10)]) (faulted .keyIndexOutOfRange 0x200 0x10) = true := by decide
theorem test_sknp : runs 0xE5A1 (regs [(5, 10)]) (fun t => t.pc == 0x204) = true := by decide
theorem test_sknp_does_not_mask : runs 0xE5A1 (regs [(5, 0xFF)]) (faulted .keyIndexOutOfRange 0x200 0xFF) = true := by decide
theorem test_ldVxK_waits : runs 0xF30A (regs [(3, 0x55)]) (fun t => t.pc == 0x200 && t.reg 3 == 0x55) = true := by decide
theorem test_ldVxK_takes_the_lowest :
    runs 0xF30A { regs [(3, 0x55)] with keys := (State.reset.keys.set 7 true).set 12 true }
      (fun t => t.pc == 0x202 && t.reg 3 == 7) = true := by decide
theorem test_ldVxDT : runs 0xF407 { State.reset with dt := 0x3C } (fun t => t.reg 4 == 0x3C) = true := by decide
theorem test_ldDTVx : runs 0xF415 (regs [(4, 0x3C)]) (fun t => t.dt == 0x3C && t.st == 0) = true := by decide
theorem test_ldSTVx : runs 0xF418 (regs [(4, 0x05)]) (fun t => t.st == 0x05 && t.dt == 0) = true := by decide
/-- KT14, KT15. -/
theorem test_tick :
    (tick { State.reset with dt := 2 }).dt = 1 ∧ (tick { State.reset with dt := 2 }).st = 0 ∧
    (tick { State.reset with st := 1 }).st = 0 ∧ (tick { State.reset with st := 1 }).dt = 0 := by decide

-- 95 section 1, S6, and R254, R255
theorem test_boot_refuses_a_longer_rom : boot Config.default (List.replicate 3585 0) = .error .romTooLarge :=
  boot_of_tooLarge (by decide) (by rw [List.length_replicate]; decide)
theorem test_fontset_glyph_B :
    (Config.default.fontset.toList.drop 0x37).take 5 = [0xE0, 0x90, 0xE0, 0x90, 0xE0] := by decide
theorem test_reset_with_other_parameters :
    (State.resetWith smallConfig).pc = 0x600 ∧ (State.resetWith smallConfig).fb.flatten.length = 24 := by decide
theorem test_ldFVx_with_another_font_address :
    runs 0xF429 { State.resetWith smallConfig with v := (regs [(4, 0xFB)]).v } (fun t => t.i == 0x0087) = true := by decide
/-- R5: the font must end at or below the start, the start must lie in memory, a line holds 8 columns, one row exists. -/
theorem test_config_wf_at_its_edges :
    Config.default.wf = true ∧ smallConfig.wf = true ∧ { Config.default with fontBase := 0x1B0 }.wf = true ∧
    { Config.default with fontBase := 0x1B1 }.wf = false ∧ { Config.default with romStart := 0xFFF }.wf = true ∧
    { Config.default with romStart := 0x1000 }.wf = false ∧ { Config.default with width := 8, height := 1 }.wf = true ∧
    { Config.default with width := 7 }.wf = false ∧ { Config.default with height := 0 }.wf = false := by decide
theorem test_fault_port : faultPort { State.reset with fault := some ⟨.memOutOfBounds, 0x200, 0x1000⟩ } = some 4 := by decide

/-! ### Witnesses: concrete states and operands that meet the hypotheses of the obligations, at the edges of their
ranges. The obligation is in the name. -/

/-- Reset with `op` where the engine fetches. -/
def holding (op : Nat) : State := State.reset.withFetchWord 16 op

/-- Reset with these turns to come. -/
def withTurns (turns : List Turn) : State := { State.reset with agenda := turns }

/-- A machine that a RET at `0x200` with no return address held has latched. -/
def latched : State := { holding 0x00EE with fault := some ⟨.stackUnderflow, 0x200, 0⟩, agenda := [] }

/-- All sixteen return addresses held. -/
def full : State := { State.reset with sp := 16 }

theorem witness_DecodeOfEncodeIsTheInstruction : (Instr.sys 0x0E1).wellFormed = true ∧ (Instr.drw 15 15 15).wellFormed = true := by
  decide
theorem witness_HighNibbleAloneSelectsTwelveGroups :
    (0x1000 : Word).toNat / 4096 = 1 ∧ (0x2FFF : Word).toNat / 4096 = 2 ∧ (0x3000 : Word).toNat / 4096 = 3 ∧
    (0x4FFF : Word).toNat / 4096 = 4 ∧ (0x500F : Word).toNat / 4096 = 5 ∧ (0x6000 : Word).toNat / 4096 = 6 ∧
    (0x7FFF : Word).toNat / 4096 = 7 ∧ (0x9FFF : Word).toNat / 4096 = 9 ∧ (0xA000 : Word).toNat / 4096 = 10 ∧
    (0xBFFF : Word).toNat / 4096 = 11 ∧ (0xC000 : Word).toNat / 4096 = 12 ∧ (0xDFFF : Word).toNat / 4096 = 13 := by decide
theorem witness_SecondDispatchSelectsTheRest :
    (0x0FFF : Word).toNat / 4096 = 0 ∧ (∀ k : Fin 16, (0x8000 + BitVec.ofFin (w := 16) (k.castLE (by decide))).toNat / 4096 = 8 ∧
      (0x8000 + BitVec.ofFin (w := 16) (k.castLE (by decide))).toNat % 16 = k.val) ∧
    (0xEF9E : Word).toNat / 4096 = 0xE ∧ (0xEF9E : Word).toNat % 256 = 0x9E ∧ (0xE0A1 : Word).toNat / 4096 = 0xE ∧
    (0xE0A1 : Word).toNat % 256 = 0xA1 ∧ (0xFF65 : Word).toNat / 4096 = 0xF ∧
    ([0xF007, 0xF00A, 0xFF15, 0xF018, 0xF01E, 0xFF29, 0xF033, 0xF055, 0xFF65].map fun op : Word => (op.toNat / 4096, op.toNat % 256)) =
      [(15, 0x07), (15, 0x0A), (15, 0x15), (15, 0x18), (15, 0x1E), (15, 0x29), (15, 0x33), (15, 0x55), (15, 0x65)] := by decide
theorem witness_StepRunsTheDecodedInstruction :
    let s := State.withFetchWord { State.reset with pc := 4094 } 16 0x332A
    s.fault = none ∧ enginesTurn s = true ∧ s.pc.toNat ≤ 4094 ∧
      (0x332A : Word).toNat = (s.mem.read s.pc.toNat).toNat * 256 + (s.mem.read (s.pc.toNat + 1)).toNat := by decide
theorem witness_FetchOutsideMemoryLatchesCauseOne :
    let s : State := { State.reset with pc := 4095 }
    s.fault = none ∧ enginesTurn s = true ∧ 4094 < s.pc.toNat := by decide
theorem witness_HaltedMachineIsFrozenUntilReset :
    latched.fault = some ⟨.stackUnderflow, 0x200, 0⟩ ∧ enginesTurn latched = true ∧
    (∃ t, step { latched with agenda := [.tick] } = .next t) ∧
    (∃ t, step { latched with agenda := [.restart []] } = .next t) :=
  ⟨rfl, rfl, ⟨_, rfl⟩, ⟨_, rfl⟩⟩
theorem witness_EngineStepAlwaysAnswersANextState : State.reset.fault = none ∧ enginesTurn State.reset = true := by decide
theorem witness_ExecutionFaultsAreExactlyTheTable : State.reset.fault = none ∧ full.fault = none := by decide
theorem witness_FaultingStepChangesOnlyTheLatch :
    (holding 0x00EE).fault = none ∧ enginesTurn (holding 0x00EE) = true ∧
    ∃ t, step (holding 0x00EE) = .next t ∧ t.fault ≠ none :=
  ⟨by decide, by decide, _, rfl, by decide⟩
theorem witness_FlagRegisterWritersAndValues :
    State.reset.fault = none ∧ State.reset.fb.shaped State.reset.config.width State.reset.config.height = true ∧
    (∃ t, exec .ret State.reset = .next t ∧ t.fault ≠ none) ∧
    (∃ t, exec (.addReg 1 2) State.reset = .next t ∧ t.fault = none) ∧
    (∃ t, exec (.ldVxMem 14) State.reset = .next t ∧ t.fault = none ∧ (14 : Reg) ≠ 15) ∧
    namesVf (.drw 14 14 15) = false ∧ namesVf (.ldMemVx 14) = false :=
  ⟨rfl, by decide, ⟨_, rfl, by decide⟩, ⟨_, rfl, rfl⟩, ⟨_, exec_ldVxMem_of_fits 14 (by decide), rfl, by decide⟩, rfl, rfl⟩
/-- Both outcomes of DRW's flag: a lit cell drawn over, and a dark one. -/
theorem witness_FlagRegisterWritersAndValues_draw :
    let lit : State := bytes 0 [0x80] { State.reset with fb := cornerLit }
    lit.fb.shaped lit.config.width lit.config.height = true ∧
    (∃ t, exec (.drw 0 0 1) lit = .next t ∧ t.fault = none ∧ lit.fb.cell 0 0 = true ∧ t.fb.cell 0 0 = false) ∧
    (∃ t, exec (.drw 0 0 1) State.reset = .next t ∧ t.fault = none ∧
      ¬∃ row col, State.reset.fb.cell row col = true ∧ t.fb.cell row col = false) :=
  ⟨by decide, ⟨_, exec_drw_of_fits 0 0 1 (by decide), rfl, by decide, by decide⟩,
    ⟨_, exec_drw_of_fits 0 0 1 (by decide), rfl, by
      rintro ⟨row, col, h, _⟩
      simp [State.reset, State.resetWith] at h⟩⟩
theorem witness_IndexPointerWritersAndUse :
    let s : State := { State.reset with i := 4096 }
    s.fault = none ∧ s.config.wf = true ∧ 4096 ≤ s.i.toNat ∧ reachesMemory (.drw 0 0 1) = true ∧ (∀ x y, Instr.drw 0 0 1 ≠ .drw x y 0) ∧
    (∃ t, exec (.drw 0 0 1) s = .next t) ∧ (∃ t, exec (.ldI 0xFFF) s = .next t) ∧ (∃ t, exec (.ldMemVx 0) s = .next t) ∧
    (∃ t, exec (.addIVx 0) s = .next t) ∧ s.i.toNat + (s.reg 0).toNat < 65536 ∧ (∃ t, exec (.ldFVx 0) s = .next t) :=
  ⟨rfl, by decide, by decide, rfl, by decide, exec_total _ _, exec_total _ _, exec_total _ _, exec_total _ _, by decide,
    exec_total _ _⟩
theorem witness_StackWritersAndBounds :
    (∀ k : Fin 17, ∃ t, exec (.call 0x300) { State.reset with sp := k } = .next t) ∧
    (∀ k : Fin 17, ∃ t, exec .ret { State.reset with sp := k } = .next t) ∧ full.sp.val = 16 ∧ State.reset.sp.val = 0 ∧
    State.reset.fault = none :=
  ⟨fun _ => exec_total _ _, fun _ => exec_total _ _, rfl, rfl, rfl⟩
theorem witness_TimersAreOnlyCopiedByTheEngine :
    (∃ t, exec (.ldVxDT 15) State.reset = .next t) ∧ (∃ t, exec (.ldDTVx 15) State.reset = .next t) ∧
    (∃ t, exec (.ldSTVx 15) State.reset = .next t) ∧ ({ State.reset with dt := 1, st := 1 } : State).dt ≠ 0 ∧
    (∃ t, step (withTurns [.keyDown 0]) = .next t) ∧ enginesTurn (withTurns [.keyDown 0]) = false ∧
    (withTurns [.keyDown 0]).agenda.head? ≠ some .tick ∧ (∀ rom, (withTurns [.keyDown 0]).agenda.head? ≠ some (.restart rom)) :=
  ⟨exec_total _ _, exec_total _ _, exec_total _ _, by decide, ⟨_, rfl⟩, rfl, by decide, by simp [withTurns]⟩
theorem witness_FramebufferIsMutatedByClearAndDrawAlone :
    (∃ t, exec (.ldBVx 0) State.reset = .next t) ∧ Instr.ldBVx 0 ≠ .cls ∧ (∀ x y n, Instr.ldBVx 0 ≠ .drw x y n) ∧
    State.reset.fb.shaped State.reset.config.width State.reset.config.height = true ∧ 31 < State.reset.config.height ∧
    63 < State.reset.config.width :=
  ⟨exec_total _ _, by decide, by simp, by decide, by decide, by decide⟩
theorem witness_IndexPointerInstructions : State.reset.config.wf = true ∧ (State.resetWith smallConfig).config.wf = true := by
  decide
theorem witness_KeysAreReadOnlyToTheEngine :
    readsKeys (.ldVxDT 0) = false ∧ (∃ t, exec (.ldVxK 0) State.reset = .next t) ∧ (withTurns [.keyDown 15]).agenda = [.keyDown 15] ∧
    (withTurns [.keyUp 0]).agenda = [.keyUp 0] ∧ (∃ t, step (withTurns [.tick]) = .next t) ∧
    (∀ k, (withTurns [.tick]).agenda.head? ≠ some (.keyDown k)) ∧ (∀ k, (withTurns [.tick]).agenda.head? ≠ some (.keyUp k)) ∧
    (∀ rom, (withTurns [.tick]).agenda.head? ≠ some (.restart rom)) :=
  ⟨rfl, exec_total _ _, rfl, rfl, ⟨_, rfl⟩, by decide, by decide, by simp [withTurns]⟩
theorem witness_MemoryIsReachedByFourInstructions :
    reachesMemory (.ldFVx 15) = false ∧ (∃ t, exec (.ldVxMem 15) State.reset = .next t) ∧
    (∀ x, Instr.ldVxMem 15 ≠ .ldBVx x) ∧ (∀ x, Instr.ldVxMem 15 ≠ .ldMemVx x) :=
  ⟨rfl, exec_total _ _, by simp, by simp⟩
theorem witness_ProgramCounterAfterEveryInstruction :
    State.reset.fault = none ∧ (∃ t, exec .ret State.reset = .next t ∧ t.fault ≠ none) ∧
    (∃ t, exec .ret full = .next t ∧ t.fault = none ∧ (15 : Fin 16).val + 1 = full.sp.val) ∧
    (∃ t, exec (.skp 0) (regs [(0, 15)]) = .next t ∧ t.fault = none ∧ (15 : Fin 16).val = ((regs [(0, 15)]).reg 0).toNat) :=
  ⟨rfl, ⟨_, rfl, by decide⟩, ⟨_, rfl, by decide, by decide⟩, ⟨_, rfl, by decide, by decide⟩⟩
theorem witness_AddRegistersWrapsAndCarries : (14 : Reg) ≠ 15 := by decide
/-- Every row of R129's table: greater, equal, less. -/
theorem witness_SubtractConventionsAreNotMirrorImages :
    (1 : Reg) ≠ 15 ∧ ((regs [(1, 1)]).reg 1).toNat > ((regs [(1, 1)]).reg 2).toNat ∧
    (State.reset.reg 1).toNat = (State.reset.reg 2).toNat ∧ ((regs [(2, 255)]).reg 1).toNat < ((regs [(2, 255)]).reg 2).toNat := by
  decide
theorem witness_ShiftsMoveOneBitIntoTheFlag : (0 : Reg) ≠ 15 := by decide
theorem witness_CallPushesTheNextAddress : State.reset.sp.val < 16 ∧ ({ State.reset with sp := 15 } : State).sp.val < 16 := by decide
theorem witness_ReturnPopsIntoThePc : full.sp.val = (15 : Fin 16).val + 1 ∧ ({ State.reset with sp := 1 } : State).sp.val = (0 : Fin 16).val + 1 := by
  decide
theorem witness_StackLimitsLatchTheirFaults : full.sp.val = 16 ∧ State.reset.sp.val = 0 := by decide
theorem witness_ReturnComesBackToTheCall :
    ({ State.reset with sp := 15 } : State).sp.val < 16 ∧
    ∃ t u : State, exec (.call 0xFFF) { State.reset with sp := 15 } = .next t ∧ u.sp = t.sp ∧ u.stack = t.stack :=
  ⟨by decide, _, { State.reset with sp := 16, stack := State.reset.stack.set 15 0x200 }, rfl, rfl, rfl⟩
theorem witness_BcdStoresThreeDigits :
    State.reset.mem.wf = true ∧ ({ State.reset with i := 4093 } : State).i.toNat + 2 < 4096 := by decide
theorem witness_SaveStoresTheRegisters :
    State.reset.mem.wf = true ∧ ({ State.reset with i := 4080 } : State).i.toNat + (15 : Reg).val < 4096 := by decide
theorem witness_RestoreLoadsTheRegisters : ({ State.reset with i := 4095 } : State).i.toNat + (0 : Reg).val < 4096 := by decide
theorem witness_RestoreAfterSaveBringsTheRegistersBack :
    let s : State := { regs [(0, 1)] with i := 4080 }
    s.mem.wf = true ∧ s.i.toNat + (15 : Reg).val < 4096 ∧
      ∃ t u : State, exec (.ldMemVx 15) s = .next t ∧ u.mem = t.mem ∧ u.i = s.i :=
  ⟨by decide, by decide, _, _, exec_ldMemVx_of_fits 15 (by decide), rfl, rfl⟩
theorem witness_OutOfRangeAccessHasNoPartialEffect :
    4096 ≤ ({ State.reset with i := 4094 } : State).i.toNat + 2 ∧ 4096 ≤ ({ State.reset with i := 4081 } : State).i.toNat + (15 : Reg).val ∧
    1 ≤ (1 : Fin 16).val ∧ 4096 ≤ ({ State.reset with i := 4096 } : State).i.toNat + (1 : Fin 16).val - 1 := by decide
theorem witness_WrittenByteIsReadBack : Memory.wf [(0, 1), (4095, 0xFF)] = true ∧ 4095 < 4096 ∧ 4095 ≠ 0 := by decide
/-- A save whose second byte is the high half of the next opcode; the low half is as before the store. -/
theorem witness_StoreIsSeenByTheNextFetch :
    let s : State := bytes 0x201 [0x05] { regs [(0, 0x11), (1, 0x60)] with i := 0x1FF }
    s.mem.wf = true ∧ s.fault = none ∧ ∃ t, exec (.ldMemVx 1) s = .next t ∧ t.fault = none ∧ t.mem = t.mem ∧
      enginesTurn t = true ∧ t.pc.toNat ≤ 4094 ∧
      (0x6005 : Word).toNat = ((storedByte (.ldMemVx 1) s t.pc.toNat).getD (s.mem.read t.pc.toNat)).toNat * 256 +
        ((storedByte (.ldMemVx 1) s (t.pc.toNat + 1)).getD (s.mem.read (t.pc.toNat + 1))).toNat :=
  ⟨by decide, rfl, _, exec_ldMemVx_of_fits 1 (by decide), rfl, rfl, rfl, by decide, by decide⟩
/-- LD B,Vx of 96: the digits 0, 9, 6, of which the last two are the opcode at the end of memory. -/
theorem witness_StoreIsSeenByTheNextFetch_digits :
    let s : State := { regs [(3, 96)] with i := 4093, pc := 4094 }
    s.mem.wf = true ∧ s.fault = none ∧ ∃ t, exec (.ldBVx 3) s = .next t ∧ t.fault = none ∧
      enginesTurn t = true ∧ t.pc.toNat ≤ 4094 ∧
      (0x0906 : Word).toNat = ((storedByte (.ldBVx 3) s t.pc.toNat).getD (s.mem.read t.pc.toNat)).toNat * 256 +
        ((storedByte (.ldBVx 3) s (t.pc.toNat + 1)).getD (s.mem.read (t.pc.toNat + 1))).toNat :=
  ⟨by decide, rfl, _, exec_ldBVx_of_fits 3 (by decide), rfl, rfl, by decide, by decide⟩
theorem witness_DrawXorsTheClippedSprite :
    State.reset.fb.shaped State.reset.config.width State.reset.config.height = true ∧
    (0 : Fin 16).val = 0 ∧ ({ State.reset with i := 4095 } : State).i.toNat + (1 : Fin 16).val - 1 < 4096 ∧
    ({ State.reset with i := 4081 } : State).i.toNat + (15 : Fin 16).val - 1 < 4096 := by decide
theorem witness_RasterLineDetector :
    Frame.shaped 64 32 cornerLit = true ∧ (0 < 32) ∧ (31 < 32) ∧ (63 < 64) ∧ Frame.shaped 8 1 (Frame.blank 8 1) = true := by
  decide
theorem witness_DrawingTwiceRestoresTheScreen :
    let s : State := { regs [(14, 0xFF)] with i := 4081 }
    s.fb.shaped s.config.width s.config.height = true ∧ (14 : Reg) ≠ 15 ∧ s.i.toNat + (15 : Fin 16).val - 1 < 4096 ∧
      exec (.drw 14 14 15) s = .next (drawn 14 14 15 s) ∧
      exec (.drw 14 14 15) (drawn 14 14 15 s) = .next (drawn 14 14 15 (drawn 14 14 15 s)) :=
  ⟨by decide, by decide, by decide, exec_drw_of_fits _ _ _ (by decide), exec_drw_of_fits _ _ _ (by decide)⟩
theorem witness_KeySkipsTestTheNamedKey :
    ((regs [(0, 15)]).reg 0).toNat = (15 : Fin 16).val ∧ (State.reset.reg 0).toNat = (0 : Fin 16).val := by decide
theorem witness_KeyIndexAboveFifteenFaults : 15 < ((regs [(5, 16)]).reg 5).toNat := by decide
theorem witness_WaitForKeyTakesTheLowestKey :
    ({ State.reset with keys := State.reset.keys.set 15 true } : State).keys[(15 : Fin 16)] = true ∧
    (∀ j : Fin 16, j < 15 → ({ State.reset with keys := State.reset.keys.set 15 true } : State).keys[j] = false) ∧
    (∀ k : Fin 16, State.reset.keys[k] = false) := by decide
theorem witness_WaitingStepChangesNothing :
    (holding 0xF30A).fault = none ∧ enginesTurn (holding 0xF30A) = true ∧ (holding 0xF30A).pc.toNat ≤ 4094 ∧
    decode (opcodeAt (holding 0xF30A).mem (holding 0xF30A).pc.toNat) = .ldVxK 3 ∧ (∀ k : Fin 16, (holding 0xF30A).keys[k] = false) := by
  decide
theorem witness_TickCountsDownAndStopsAtZero : (withTurns [.tick]).agenda = .tick :: [] := rfl
theorem witness_CollaboratorsTouchOnlyTheirOwnState :
    (withTurns [.keyDown 15]).agenda = .keyDown 15 :: [] ∧ (withTurns [.keyUp 15]).agenda = .keyUp 15 :: [] ∧
    (withTurns [.tick]).agenda = .tick :: [] ∧ (withTurns [.display]).agenda = .display :: [] := ⟨rfl, rfl, rfl, rfl⟩
theorem witness_BootLoadsTheRomAndTheFont :
    Config.default.wf = true ∧ 4096 < Config.default.romStart.toNat + (List.replicate 3585 (0 : Byte)).length ∧
    Config.default.romStart.toNat + (List.replicate 3584 (1 : Byte)).length ≤ 4096 ∧
    (List.replicate 3584 (1 : Byte))[3583]? = some 1 ∧ smallConfig.wf = true ∧
    smallConfig.romStart.toNat + [(0x12 : Byte)].length ≤ 4096 := by
  refine ⟨by decide, by rw [List.length_replicate]; decide, by rw [List.length_replicate]; decide, ?_, by decide, by decide⟩
  rw [List.getElem?_replicate, if_pos (by omega)]
theorem witness_RestartIsANewBoot :
    latched.config.wf = true ∧ ({ latched with agenda := [.restart [0x12]] } : State).agenda = .restart [0x12] :: [] ∧
    latched.config.romStart.toNat + [(0x12 : Byte)].length ≤ 4096 ∧
    ({ latched with agenda := [.restart (List.replicate 3585 0)] } : State).agenda = .restart (List.replicate 3585 0) :: [] ∧
    4096 < latched.config.romStart.toNat + (List.replicate 3585 (0 : Byte)).length :=
  ⟨by decide, rfl, by decide, rfl, by rw [List.length_replicate]; decide⟩
/-- A latched record and a slot at its bound, within the invariant, in a state that steps. -/
theorem witness_EveryStepKeepsTheInvariant :
    ∃ s t : State, s.Inv ∧ s.fault ≠ none ∧ step s = .next t :=
  ⟨{ latched with agenda := [.tick], stack := latched.stack.set 15 4096 }, _,
    ⟨by decide, by decide, by decide, by decide, by decide, fun r h => by cases h; unfold recordTrue; decide⟩, by decide, rfl⟩
/-- A store, a draw and a CALL that overflows, from states within the invariant. -/
theorem witness_EveryStepKeepsTheInvariant_engine :
    (∀ op ∈ [0xF055, 0xD001, 0x2FFF], (holding op).Inv) ∧ { holding 0x2FFF with sp := 16 }.Inv :=
  ⟨fun op h => by
      simp only [List.mem_cons, List.not_mem_nil, or_false] at h
      rcases h with rfl | rfl | rfl <;>
        exact ⟨by decide, by decide, by decide, by decide, by decide, fun r h => by cases h⟩,
    ⟨by decide, by decide, by decide, by decide, by decide, fun r h => by cases h⟩⟩
theorem witness_ResetHasTheInvariant : Config.default.wf = true ∧ smallConfig.wf = true := by decide
theorem witness_EveryBootHasTheInvariant :
    Config.default.wf = true ∧ (∃ s, boot Config.default [0x60, 0x05] = .ok s) ∧ smallConfig.wf = true ∧
    ∃ s, boot smallConfig [0x60, 0x05] = .ok s :=
  ⟨by decide, ⟨_, boot_of_fits (by decide)⟩, by decide, _, boot_of_fits (by decide)⟩

end Sys2Proof.Tests
end

section
/-! PROOFS. The key vector (spec/10_state.md R38): what the instructions and the turns do with it. -/

namespace Sys2Proof.Machine

/-! ### instructions and the key vector -/

/-- The range check does not read the keys, and neither does the fault it raises. -/
theorem withRange_with_keys {count : Nat} {s : State} {w : Vector Bool 16} {go go' : Result}
    (hgo : go' = mapNext (fun t => { t with keys := w }) go) :
    withRange count { s with keys := w } go' = mapNext (fun t => { t with keys := w }) (withRange count s go) := by
  cases h : inBounds s.i.toNat count with
  | true =>
    rw [withRange_of_inBounds go h, ← hgo]
    exact withRange_of_inBounds (s := { s with keys := w }) go' h
  | false =>
    rw [withRange_of_not_inBounds go h]
    exact withRange_of_not_inBounds (s := { s with keys := w }) go' h

/-- A skip whose condition is settled already goes the same way whatever the keys hold. -/
theorem next_skipIf_with_keys (s : State) (w : Vector Bool 16) (c : Bool) :
    (.next (({ s with keys := w } : State).skipIf c) : Result) =
      mapNext (fun t => { t with keys := w }) (.next (s.skipIf c)) :=
  congrArg Host.Outcome.next (skipIf_with_keys s w c)

/-- An instruction that does not read the keys commutes with replacing them. -/
theorem exec_with_keys {i : Instr} (hi : readsKeys i = false) (s : State) (w : Vector Bool 16) :
    exec i { s with keys := w } = mapNext (fun t => { t with keys := w }) (exec i s) := by
  cases i with
  | skp x | sknp x | ldVxK x => exact Bool.noConfusion hi
  | call nnn =>
    rcases exec_call_cases nnn s with ⟨h, hs⟩ | ⟨h, hs⟩ <;> rw [hs]
    · exact exec_call_of_room (s := { s with keys := w }) nnn h
    · exact exec_call_of_full nnn h
  | ret =>
    rcases exec_ret_cases s with ⟨h, hs⟩ | ⟨h, hs⟩ <;> rw [hs]
    · exact exec_ret_of_held (s := { s with keys := w }) h
    · exact exec_ret_of_empty h
  | seByte x kk | sneByte x kk | seReg x y | sneReg x y => exact next_skipIf_with_keys s w _
  | drw x y n | ldBVx x | ldMemVx x | ldVxMem x => exact withRange_with_keys rfl
  | _ => rfl

/-! ### turns and the key vector -/

/-- A key's write sets its own entry and leaves every other. -/
theorem getElem_keys_setKey (k j : Fin 16) (pressed : Bool) (s : State) :
    (setKey k pressed s).keys[j] = if j = k then pressed else s.keys[j] := by
  simp [Vector.getElem_set, Fin.ext_iff, eq_comm]

/-- The engine's step leaves the keys alone, whether it executes or takes the fetch fault. -/
theorem engineStep_keys {s t : State} (h : engineStep s = .next t) : t.keys = s.keys := by
  cases hf : s.fault with
  | some r => rw [engineStep_of_halted hf] at h; cases h
  | none =>
    rcases Nat.lt_or_ge 4094 s.pc.toNat with hpc | hpc
    · rw [engineStep_of_noFetch hf hpc] at h; cases h; rfl
    · rw [engineStep_of_fetch hf hpc] at h
      obtain ⟨-, -, hkeys, -⟩ := exec_frame h
      exact hkeys

/-- Of the turns only key-down, key-up and the restart can change the keys. -/
theorem takeTurn_keys {turn : Turn} {s t : State} (h : takeTurn turn s = .next t) (hdown : ∀ k, turn ≠ .keyDown k)
    (hup : ∀ k, turn ≠ .keyUp k) (hrestart : ∀ rom, turn ≠ .restart rom) : t.keys = s.keys := by
  cases turn with
  | engine => exact engineStep_keys h
  | keyDown k => exact absurd rfl (hdown k)
  | keyUp k => exact absurd rfl (hup k)
  | tick | display => cases h; rfl
  | restart rom => exact absurd rfl (hrestart rom)

theorem step_of_agenda {s : State} {turn : Turn} {rest : List Turn} (h : s.agenda = turn :: rest) :
    step s = takeTurn turn (popTurn s) := by
  rw [step, h, List.headD_cons]

/-- Key-down presses its own key (R7, R38). -/
theorem step_keyDown_keys {s : State} {k : Fin 16} {rest : List Turn} (h : s.agenda = .keyDown k :: rest) (j : Fin 16) :
    ∃ t, step s = .next t ∧ t.keys[j] = if j = k then true else s.keys[j] :=
  ⟨_, step_of_agenda h, getElem_keys_setKey k j true (popTurn s)⟩

/-- Key-up releases its own key (R7, R38). -/
theorem step_keyUp_keys {s : State} {k : Fin 16} {rest : List Turn} (h : s.agenda = .keyUp k :: rest) (j : Fin 16) :
    ∃ t, step s = .next t ∧ t.keys[j] = if j = k then false else s.keys[j] :=
  ⟨_, step_of_agenda h, getElem_keys_setKey k j false (popTurn s)⟩

/-- A step whose turn is not key-down, key-up or the restart leaves the keys alone; the engine steps when the agenda
is empty. -/
theorem step_keys {s t : State} (h : step s = .next t) (hdown : ∀ k, s.agenda.head? ≠ some (.keyDown k))
    (hup : ∀ k, s.agenda.head? ≠ some (.keyUp k)) (hrestart : ∀ rom, s.agenda.head? ≠ some (.restart rom)) :
    t.keys = s.keys := by
  cases ha : s.agenda with
  | nil =>
    rw [step_of_enginesTurn (by simp [enginesTurn, ha])] at h
    exact engineStep_keys (s := popTurn s) h
  | cons turn rest =>
    rw [step_of_agenda ha] at h
    simp only [ha, List.head?_cons, ne_eq, Option.some.injEq] at hdown hup hrestart
    exact takeTurn_keys (s := popTurn s) h hdown hup hrestart

/-- Settles O19: the executor's frame and its independence of the keys, then the turns one by one. -/
theorem keysAreReadOnlyToTheEngine : Obligations.KeysAreReadOnlyToTheEngine := by
  refine ⟨fun i s t h => ?_, fun i s w hi => exec_with_keys hi s w,
    fun s k j rest => ⟨fun h => step_keyDown_keys h j, fun h => step_keyUp_keys h j⟩,
    fun s t h hdown hup hrestart => step_keys h hdown hup hrestart⟩
  obtain ⟨-, -, hkeys, -⟩ := exec_frame h
  exact hkeys

end Sys2Proof.Machine
end

section
/-! PROOFS. The operand fields of an opcode (spec/30_encoding.md R72). -/

namespace Sys2Proof

/-- Settles O2: each field is a slice of the opcode, so a quotient and a remainder of its value. -/
theorem operandFieldsSitWhereTheTableSays : Obligations.OperandFieldsSitWhereTheTableSays :=
  fun op => ⟨fieldX_val op, fieldY_val op, fieldN_val op, fieldKK_toNat op, fieldNNN_toNat op⟩

end Sys2Proof
end

section
/-! PROOFS. The two subtract instructions (spec/42_alu.md R129, R142, R146). -/

namespace Sys2Proof.Machine

/-! ### a result and a flag -/

/-- A result-and-flag write differs from the state before in the result's register and `VF` only. -/
theorem changesOnlyRegs_setResultThenFlag (s : State) (x : Reg) (b f : Byte) :
    ChangesOnlyRegs (fun r => r = x ∨ r = 15) s (s.setResultThenFlag x b f) :=
  ⟨fun _ h => reg_setResultThenFlag_other s b f (h ∘ .inl) (h ∘ .inr), fun _ => rfl, setResultThenFlag_eq s x b f⟩

/-- An instruction that writes a result and then the flag, seen from outside: with another register than `VF` as the
destination both values stay. -/
theorem exists_next_of_setResultThenFlag {i : Instr} {s : State} {x : Reg} {b f : Byte} (hx : x ≠ 15)
    (h : exec i s = .next (s.setResultThenFlag x b f)) :
    ∃ t, exec i s = .next t ∧ ChangesOnlyRegs (fun r => r = x ∨ r = 15) s t ∧ t.reg x = b ∧ t.reg 15 = f :=
  ⟨_, h, changesOnlyRegs_setResultThenFlag s x b f, reg_setResultThenFlag_result s b f hx,
    reg_setResultThenFlag_vf s x b f⟩

theorem exec_subReg (x y : Reg) (s : State) :
    exec (.subReg x y) s = .next (s.setResultThenFlag x (s.reg x - s.reg y) (subFlag (s.reg x) (s.reg y))) := rfl

theorem exec_subnReg (x y : Reg) (s : State) :
    exec (.subnReg x y) s = .next (s.setResultThenFlag x (s.reg y - s.reg x) (subnFlag (s.reg x) (s.reg y))) := rfl

/-! ### the rows of R129's table, on bytes -/

/-- A difference below zero wraps once (R128). -/
theorem toNat_sub_of_toNat_lt {a b : Byte} (h : a.toNat < b.toNat) : (a - b).toNat = 256 + a.toNat - b.toNat := by
  have := b.isLt
  rw [BitVec.toNat_sub_of_lt h]
  omega

theorem sub_eq_zero_of_toNat_eq {a b : Byte} (h : a.toNat = b.toNat) : a - b = 0 := by
  cases BitVec.eq_of_toNat_eq h
  exact BitVec.sub_self a

theorem subFlag_of_gt {a b : Byte} (h : a.toNat > b.toNat) : subFlag a b = 1 := by rw [subFlag_eq, if_pos h]

theorem subFlag_of_le {a b : Byte} (h : a.toNat ≤ b.toNat) : subFlag a b = 0 := by
  rw [subFlag_eq, if_neg (Nat.not_lt.mpr h)]

theorem subnFlag_of_gt {a b : Byte} (h : a.toNat > b.toNat) : subnFlag a b = 0 := by rw [subnFlag_eq, if_pos h]

theorem subnFlag_of_le {a b : Byte} (h : a.toNat ≤ b.toNat) : subnFlag a b = 1 := by
  rw [subnFlag_eq, if_neg (Nat.not_lt.mpr h)]

/-- Settles O25: the executor's result and flag, read back, are the rows of R129's table; on equal operands the two
flags differ because both ask for strictly greater. -/
theorem subtractConventionsAreNotMirrorImages : Obligations.SubtractConventionsAreNotMirrorImages := by
  intro x y s hx
  constructor
  · obtain ⟨t, ht, hframe, hresult, hflag⟩ := exists_next_of_setResultThenFlag hx (exec_subReg x y s)
    refine ⟨t, ht, hframe, ?_⟩
    rw [hresult, hflag]
    exact ⟨fun hgt => ⟨BitVec.toNat_sub_of_le (Nat.le_of_lt hgt), subFlag_of_gt hgt⟩,
      fun heq => ⟨sub_eq_zero_of_toNat_eq heq, subFlag_of_le (Nat.le_of_eq heq)⟩,
      fun hlt => ⟨toNat_sub_of_toNat_lt hlt, subFlag_of_le (Nat.le_of_lt hlt)⟩⟩
  · obtain ⟨t, ht, hframe, hresult, hflag⟩ := exists_next_of_setResultThenFlag hx (exec_subnReg x y s)
    refine ⟨t, ht, hframe, ?_⟩
    rw [hresult, hflag]
    exact ⟨fun hgt => ⟨toNat_sub_of_toNat_lt hgt, subnFlag_of_gt hgt⟩,
      fun heq => ⟨sub_eq_zero_of_toNat_eq heq.symm, subnFlag_of_le (Nat.le_of_eq heq)⟩,
      fun hlt => ⟨BitVec.toNat_sub_of_le (Nat.le_of_lt hlt), subnFlag_of_le (Nat.le_of_lt hlt)⟩⟩

end Sys2Proof.Machine
end

section
/-! PROOFS. What `exec` answers, said once for all instructions: the record the table of causes gives, or else the state
the instruction completes with (spec/60_exceptions.md R221, R226). -/

namespace Sys2Proof.Machine

/-! ### the two outcomes of an instruction -/

/-- The state a fault leaves: `pc` back at the instruction and the latch set (R221). -/
def faultedWith (s : State) (r : FaultRecord) : State := { s with pc := s.pc - 2, fault := some r }

/-- The state an instruction leaves when it does not fault (`exec_of_noFault`). For one that can only go one way this is
`exec`'s answer; what it is for an instruction that faults is never asked. -/
def completed (i : Instr) (s : State) : State :=
  match i with
  | .call nnn => if h : s.sp.val < 16 then (s.push h s.pc).setPc (zextAddr nnn) else s
  | .ret => if h : 0 < s.sp.val then (s.pop h).2.setPc (s.pop h).1 else s
  | .drw x y n => drawn x y n s
  | .ldBVx x => { s with mem := s.mem.writeBytes s.i.toNat (bcdDigits (s.reg x)) }
  | .ldMemVx x => { s with mem := s.mem.writeBytes s.i.toNat (savedBytes s x) }
  | .ldVxMem x => { s with v := restoredRegs s x }
  | .skp x => s.skipIf ((keyIndex (s.reg x)).any fun k => s.keys[k])
  | .sknp x => s.skipIf ((keyIndex (s.reg x)).any fun k => !s.keys[k])
  | .ldVxK x => (firstPressed s).elim (s.setPc (s.pc - 2)) fun k => s.setReg x (BitVec.ofNat 8 k)
  | i => match exec i s with
    | .next t => t
    | .fault _ | .refused _ => s

theorem completed_call (nnn : Addr12) (s : State) :
    completed (.call nnn) s = if h : s.sp.val < 16 then (s.push h s.pc).setPc (zextAddr nnn) else s := rfl

theorem completed_ret (s : State) :
    completed .ret s = if h : 0 < s.sp.val then (s.pop h).2.setPc (s.pop h).1 else s := rfl

theorem completed_skp (x : Reg) (s : State) :
    completed (.skp x) s = s.skipIf ((keyIndex (s.reg x)).any fun k => s.keys[k]) := rfl

theorem completed_sknp (x : Reg) (s : State) :
    completed (.sknp x) s = s.skipIf ((keyIndex (s.reg x)).any fun k => !s.keys[k]) := rfl

theorem completed_ldVxK (x : Reg) (s : State) : completed (.ldVxK x) s =
    (firstPressed s).elim (s.setPc (s.pc - 2)) fun k => s.setReg x (BitVec.ofNat 8 k) := rfl

theorem completed_ldVxMem (x : Reg) (s : State) : completed (.ldVxMem x) s = { s with v := restoredRegs s x } := rfl

/-- An instruction latches the record the table of causes gives and changes nothing else, or completes. -/
theorem exec_cases (i : Instr) (s : State) :
    (∃ r, faultOf i s = some r ∧ exec i s = .next (faultedWith s r)) ∨
    (faultOf i s = none ∧ exec i s = .next (completed i s)) := by
  cases i with
  | call nnn =>
    rcases exec_call_cases nnn s with ⟨h, hs⟩ | ⟨h, hs⟩
    · exact .inr ⟨if_neg (Nat.ne_of_lt h), by rw [hs, completed_call, dif_pos h]⟩
    · exact .inl ⟨_, if_pos h, hs⟩
  | ret =>
    rcases exec_ret_cases s with ⟨h, hs⟩ | ⟨h, hs⟩
    · exact .inr ⟨if_neg (Nat.ne_of_gt h), by rw [hs, completed_ret, dif_pos h]⟩
    · exact .inl ⟨_, if_pos h, hs⟩
  | drw x y n =>
    rcases exec_drw_cases x y n s with ⟨h, hs⟩ | ⟨h, hs⟩
    · exact .inr ⟨if_neg (by simp only [Config.memSize]; omega), hs⟩
    · exact .inl ⟨_, if_pos h, hs⟩
  | ldBVx x =>
    rcases exec_ldBVx_cases x s with ⟨h, hs⟩ | ⟨h, hs⟩
    · exact .inr ⟨if_neg (Nat.not_le.mpr h), hs⟩
    · exact .inl ⟨_, if_pos h, hs⟩
  | ldMemVx x =>
    rcases exec_ldMemVx_cases x s with ⟨h, hs⟩ | ⟨h, hs⟩
    · exact .inr ⟨if_neg (Nat.not_le.mpr h), hs⟩
    · exact .inl ⟨_, if_pos h, hs⟩
  | ldVxMem x =>
    rcases exec_ldVxMem_cases x s with ⟨h, hs⟩ | ⟨h, hs⟩
    · exact .inr ⟨if_neg (Nat.not_le.mpr h), hs⟩
    · exact .inl ⟨_, if_pos h, hs⟩
  | skp x =>
    rcases exec_skp_cases x s with ⟨k, h, hs⟩ | ⟨h, hs⟩
    · exact .inr ⟨if_neg (by omega), by rw [hs, completed_skp, keyIndex_of_eq h]; rfl⟩
    · exact .inl ⟨_, if_pos h, hs⟩
  | sknp x =>
    rcases exec_sknp_cases x s with ⟨k, h, hs⟩ | ⟨h, hs⟩
    · exact .inr ⟨if_neg (by omega), by rw [hs, completed_sknp, keyIndex_of_eq h]; rfl⟩
    · exact .inl ⟨_, if_pos h, hs⟩
  | ldVxK x => exact .inr ⟨rfl, by rw [exec, execLdVxK, completed_ldVxK]; cases firstPressed s <;> rfl⟩
  | _ => exact .inr ⟨rfl, rfl⟩

theorem exec_of_fault {i : Instr} {s : State} {r : FaultRecord} (h : faultOf i s = some r) :
    exec i s = .next (faultedWith s r) := by
  rcases exec_cases i s with ⟨r', hr, hs⟩ | ⟨hr, -⟩
  · rw [hs, Option.some_inj.mp (hr.symm.trans h)]
  · exact nomatch hr.symm.trans h

theorem exec_of_noFault {i : Instr} {s : State} (h : faultOf i s = none) : exec i s = .next (completed i s) := by
  rcases exec_cases i s with ⟨r, hr, -⟩ | ⟨-, hs⟩
  · exact nomatch hr.symm.trans h
  · exact hs

/-- Read backwards: what a next state of `exec` can be. -/
theorem exec_inv {i : Instr} {s t : State} (h : exec i s = .next t) :
    (∃ r, faultOf i s = some r ∧ t = faultedWith s r) ∨ (faultOf i s = none ∧ t = completed i s) := by
  rcases exec_cases i s with ⟨r, hr, hs⟩ | ⟨hr, hs⟩ <;> cases hs.symm.trans h
  exacts [.inl ⟨r, hr, rfl⟩, .inr ⟨hr, rfl⟩]

/-- A record the table gives names the instruction's own address, and never the fetch (R226). -/
theorem faultOf_some {i : Instr} {s : State} {r : FaultRecord} (h : faultOf i s = some r) :
    r.fpc = s.pc - 2 ∧ r.cause ≠ .fetchOutOfBounds := by
  cases i <;> simp only [faultOf, reduceCtorEq, Option.ite_none_right_eq_some, Option.some_inj] at h <;>
    obtain ⟨-, rfl⟩ := h <;> exact ⟨rfl, nofun⟩

/-! ### what a completed instruction leaves alone -/

theorem fault_completed (i : Instr) (s : State) : (completed i s).fault = s.fault := by
  cases i with
  | call => rw [completed_call]; split <;> rfl
  | ret => rw [completed_ret]; split <;> rfl
  | seByte | sneByte | seReg | sneReg | skp | sknp => exact skipIf_fault _ _
  | ldVxK x => rw [completed_ldVxK]; cases firstPressed s <;> rfl
  | ldVxMem x => rw [completed_ldVxMem]
  | _ => rfl

theorem i_completed {i : Instr} (s : State) (hld : ∀ nnn, i ≠ .ldI nnn) (hadd : ∀ x, i ≠ .addIVx x)
    (hglyph : ∀ x, i ≠ .ldFVx x) : (completed i s).i = s.i := by
  cases i with
  | ldI nnn => exact absurd rfl (hld nnn)
  | addIVx x => exact absurd rfl (hadd x)
  | ldFVx x => exact absurd rfl (hglyph x)
  | call => rw [completed_call]; split <;> rfl
  | ret => rw [completed_ret]; split <;> rfl
  | seByte | sneByte | seReg | sneReg | skp | sknp => exact skipIf_i _ _
  | ldVxK x => rw [completed_ldVxK]; cases firstPressed s <;> rfl
  | ldVxMem x => rw [completed_ldVxMem]
  | _ => rfl

theorem stack_completed {i : Instr} (s : State) (hcall : ∀ nnn, i ≠ .call nnn) (hret : i ≠ .ret) :
    (completed i s).sp = s.sp ∧ (completed i s).stack = s.stack := by
  cases i with
  | call nnn => exact absurd rfl (hcall nnn)
  | ret => exact absurd rfl hret
  | seByte | sneByte | seReg | sneReg | skp | sknp => exact ⟨skipIf_sp _ _, skipIf_stack _ _⟩
  | ldVxK x => rw [completed_ldVxK]; cases firstPressed s <;> exact ⟨rfl, rfl⟩
  | ldVxMem x => rw [completed_ldVxMem]; exact ⟨rfl, rfl⟩
  | _ => exact ⟨rfl, rfl⟩

/-- With no record latched before, the latch says which outcome it was: the table gives none exactly if none is latched
after. -/
theorem exec_inv_fault {i : Instr} {s t : State} (hf : s.fault = none) (h : exec i s = .next t) :
    t.fault = faultOf i s := by
  rcases exec_inv h with ⟨r, hr, rfl⟩ | ⟨hr, rfl⟩
  · exact hr.symm
  · rw [fault_completed, hf, hr]

/-- An instruction that leaves no record latched has completed. -/
theorem eq_completed {i : Instr} {s t : State} (hf : s.fault = none) (h : exec i s = .next t) (ht : t.fault = none) :
    t = completed i s := by
  rw [exec_of_noFault ((exec_inv_fault hf h).symm.trans ht)] at h
  cases h; rfl

/-- An instruction that leaves a record latched has put `pc` back and changed nothing else (R221). -/
theorem eq_faultedWith {i : Instr} {s t : State} {r : FaultRecord} (hf : s.fault = none) (h : exec i s = .next t)
    (ht : t.fault = some r) : t = faultedWith s r := by
  rw [exec_of_fault ((exec_inv_fault hf h).symm.trans ht)] at h
  cases h; rfl

end Sys2Proof.Machine
end

section
/-! PROOFS. The timers, the framebuffer and memory are read and written by the instructions that name them alone
(spec/10_state.md R34, R36, spec/20_memory.md R50): every other instruction commutes with replacing their contents. -/

namespace Sys2Proof.Machine

/-- The state with the contents of the timers, the framebuffer and memory put through functions; with `id` for a
function that element stays. -/
def State.patch (d e : Byte → Byte) (f : Frame → Frame) (m : Memory → Memory) (s : State) : State :=
  { s with dt := d s.dt, st := e s.st, fb := f s.fb, mem := m s.mem }

section
variable (d e : Byte → Byte) (f : Frame → Frame) (m : Memory → Memory) (s : State)

theorem skipIf_patch (c : Bool) : (s.patch d e f m).skipIf c = (s.skipIf c).patch d e f m := by cases c <;> rfl

theorem restoredRegs_patch (x : Reg) : restoredRegs (s.patch d e f id) x = restoredRegs s x := by
  unfold restoredRegs
  rfl

/-- The table of causes reads none of the four. -/
theorem faultOf_patch (i : Instr) : faultOf i (s.patch d e f m) = faultOf i s := faultOf_congr i rfl rfl rfl rfl

/-- An instruction commutes with replacing the contents of whatever it does not use. -/
theorem completed_patch {i : Instr}
    (hd : ((∀ x, i ≠ .ldVxDT x) ∧ ∀ x, i ≠ .ldDTVx x) ∨ d = id) (he : (∀ x, i ≠ .ldSTVx x) ∨ e = id)
    (hf : (i ≠ .cls ∧ ∀ x y n, i ≠ .drw x y n) ∨ f = id) (hm : reachesMemory i = false ∨ m = id) :
    completed i (s.patch d e f m) = (completed i s).patch d e f m := by
  cases i with
  | call nnn => rw [completed_call, completed_call, apply_dite (State.patch d e f m)]; rfl
  | ret => rw [completed_ret, completed_ret, apply_dite (State.patch d e f m)]; rfl
  | seByte | sneByte | seReg | sneReg | skp | sknp => exact skipIf_patch d e f m s _
  | ldVxK x =>
    rw [completed_ldVxK, completed_ldVxK, show firstPressed (s.patch d e f m) = firstPressed s from rfl]
    cases firstPressed s <;> rfl
  | ldVxDT x => obtain rfl := hd.resolve_left fun h => h.1 x rfl; rfl
  | ldDTVx x => obtain rfl := hd.resolve_left fun h => h.2 x rfl; rfl
  | ldSTVx x => obtain rfl := he.resolve_left fun h => h x rfl; rfl
  | cls => obtain rfl := hf.resolve_left fun h => h.1 rfl; rfl
  | drw x y n =>
    obtain rfl := hf.resolve_left fun h => h.2 x y n rfl
    obtain rfl := hm.resolve_left nofun
    rfl
  | ldBVx | ldMemVx => obtain rfl := hm.resolve_left nofun; rfl
  | ldVxMem x =>
    obtain rfl := hm.resolve_left nofun
    rw [completed_ldVxMem, completed_ldVxMem, restoredRegs_patch]; rfl
  | _ => rfl

theorem exec_patch {i : Instr}
    (hd : ((∀ x, i ≠ .ldVxDT x) ∧ ∀ x, i ≠ .ldDTVx x) ∨ d = id) (he : (∀ x, i ≠ .ldSTVx x) ∨ e = id)
    (hf : (i ≠ .cls ∧ ∀ x y n, i ≠ .drw x y n) ∨ f = id) (hm : reachesMemory i = false ∨ m = id) :
    exec i (s.patch d e f m) = mapNext (State.patch d e f m) (exec i s) := by
  rcases exec_cases i s with ⟨r, hr, hs⟩ | ⟨hr, hs⟩ <;> rw [hs]
  · exact exec_of_fault ((faultOf_patch d e f m s i).trans hr)
  · rw [exec_of_noFault ((faultOf_patch d e f m s i).trans hr), completed_patch d e f m s hd he hf hm]; rfl

end

/-! ### one element at a time -/

theorem exec_with_dt {i : Instr} (s : State) (b : Byte) (hget : ∀ x, i ≠ .ldVxDT x) (hset : ∀ x, i ≠ .ldDTVx x) :
    exec i { s with dt := b } = mapNext (fun t => { t with dt := b }) (exec i s) :=
  exec_patch (fun _ => b) id id id s (.inl ⟨hget, hset⟩) (.inr rfl) (.inr rfl) (.inr rfl)

theorem exec_with_st {i : Instr} (s : State) (b : Byte) (hset : ∀ x, i ≠ .ldSTVx x) :
    exec i { s with st := b } = mapNext (fun t => { t with st := b }) (exec i s) :=
  exec_patch id (fun _ => b) id id s (.inr rfl) (.inl hset) (.inr rfl) (.inr rfl)

theorem exec_with_fb {i : Instr} (s : State) (f : Frame) (hcls : i ≠ .cls) (hdrw : ∀ x y n, i ≠ .drw x y n) :
    exec i { s with fb := f } = mapNext (fun t => { t with fb := f }) (exec i s) :=
  exec_patch id id (fun _ => f) id s (.inr rfl) (.inr rfl) (.inl ⟨hcls, hdrw⟩) (.inr rfl)

theorem exec_with_mem {i : Instr} (s : State) (m : Memory) (hi : reachesMemory i = false) :
    exec i { s with mem := m } = mapNext (fun t => { t with mem := m }) (exec i s) :=
  exec_patch id id id (fun _ => m) s (.inr rfl) (.inr rfl) (.inr rfl) (.inl hi)

/-- How a frame is read off an instruction's commuting with replacing an element by itself: what the replacement fixes,
the next state has. -/
theorem project_of_exec {α : Type} {i : Instr} {s t : State} {g : State → State} {p : State → α} {a : α}
    (h : exec i s = .next t) (hg : exec i s = mapNext g (exec i s)) (hp : ∀ u, p (g u) = a) : p t = a := by
  rw [h] at hg
  rw [Host.Outcome.next.inj hg]
  exact hp t

theorem dt_of_exec {i : Instr} {s t : State} (h : exec i s = .next t) (hset : ∀ x, i ≠ .ldDTVx x) : t.dt = s.dt := by
  by_cases hget : ∃ x, i = .ldVxDT x
  · obtain ⟨x, rfl⟩ := hget
    cases h; rfl
  · exact project_of_exec (p := State.dt) h (exec_with_dt s s.dt (not_exists.mp hget) hset) fun _ => rfl

theorem st_of_exec {i : Instr} {s t : State} (h : exec i s = .next t) (hset : ∀ x, i ≠ .ldSTVx x) : t.st = s.st :=
  project_of_exec (p := State.st) h (exec_with_st s s.st hset) fun _ => rfl

theorem fb_of_exec {i : Instr} {s t : State} (h : exec i s = .next t) (hcls : i ≠ .cls)
    (hdrw : ∀ x y n, i ≠ .drw x y n) : t.fb = s.fb :=
  project_of_exec (p := State.fb) h (exec_with_fb s s.fb hcls hdrw) fun _ => rfl

/-- DRW and LD Vx,[I] reach memory too, but write none. -/
theorem mem_of_exec {i : Instr} {s t : State} (h : exec i s = .next t) (hbcd : ∀ x, i ≠ .ldBVx x)
    (hsave : ∀ x, i ≠ .ldMemVx x) : t.mem = s.mem := by
  cases hi : reachesMemory i with
  | false => exact project_of_exec (p := State.mem) h (exec_with_mem s s.mem hi) fun _ => rfl
  | true =>
    rcases exec_inv h with ⟨r, -, rfl⟩ | ⟨-, rfl⟩
    · rfl
    · cases i with
      | drw => rfl
      | ldVxMem x => rw [completed_ldVxMem]
      | ldBVx x => exact absurd rfl (hbcd x)
      | ldMemVx x => exact absurd rfl (hsave x)
      | _ => exact Bool.noConfusion hi

/-- Settles O20: memory passes through every instruction but the four, and of the four the two stores alone change it. -/
theorem memoryIsReachedByFourInstructions : Obligations.MemoryIsReachedByFourInstructions :=
  ⟨fun _ s m hi => exec_with_mem s m hi, fun _ _ _ h => mem_of_exec h⟩

end Sys2Proof.Machine
end

section
/-! PROOFS. The invariant of the machine (spec/10_state.md, spec/60_exceptions.md R221, R226): reset and boot meet it, and
every turn of every agent keeps it. -/

namespace Sys2Proof.Machine

/-! ### instructions and the parts of the invariant -/

theorem wf_mem_of_exec {i : Instr} {s t : State} (h : exec i s = .next t) (hm : s.mem.wf = true) : t.mem.wf = true := by
  rcases exec_inv h with ⟨r, -, rfl⟩ | ⟨-, ht⟩
  · exact hm
  · cases i with
    | ldBVx | ldMemVx => rw [ht]; exact Memory.wf_writeBytes hm _ _
    | _ => rw [mem_of_exec h nofun nofun]; exact hm

theorem shaped_of_exec {i : Instr} {s t : State} (h : exec i s = .next t)
    (hs : s.fb.shaped s.config.width s.config.height = true) : t.fb.shaped s.config.width s.config.height = true := by
  rcases exec_inv h with ⟨r, -, rfl⟩ | ⟨-, ht⟩
  · exact hs
  · cases i with
    | cls => rw [ht]; exact Frame.shaped_blank _ _
    | drw x y n => rw [ht]; exact (drawSprite_spec x y n hs).1
    | _ => rw [fb_of_exec h nofun nofun]; exact hs

theorem pc_skipIf_le {s : State} (c : Bool) (h : s.pc.toNat ≤ 4096) : (s.skipIf c).pc.toNat ≤ 4098 := by
  rw [skipIf_pc]
  split
  · rw [BitVec.toNat_add]; simp; omega
  · omega

/-- R28: where an instruction can leave `pc`. The largest value is that of JP V0,addr with both operands at their
largest. -/
theorem pc_completed_le {i : Instr} {s : State} (hpc : s.pc.toNat ≤ 4096) (hback : (s.pc - 2).toNat ≤ 4096)
    (hslots : ∀ k : Fin 16, s.stack[k].toNat ≤ 4096) : (completed i s).pc.toNat ≤ 0x10FE := by
  cases i with
  | jp nnn => exact Nat.le_trans (Nat.le_of_eq (zextAddr_toNat nnn)) (by omega)
  | jpV0 nnn =>
    refine Nat.le_trans (Nat.le_of_eq (offsetTarget_toNat nnn (s.reg 0))) ?_
    have := (s.reg 0).isLt
    omega
  | call nnn =>
    rw [completed_call]
    split
    · rw [setPc_pc, zextAddr_toNat]; omega
    · omega
  | ret =>
    rw [completed_ret]
    split
    · exact Nat.le_trans (hslots ⟨s.sp.val - 1, by omega⟩) (by omega)
    · omega
  | seByte | sneByte | seReg | sneReg | skp | sknp => exact Nat.le_trans (pc_skipIf_le _ hpc) (by omega)
  | ldVxK x =>
    rw [completed_ldVxK]
    cases firstPressed s
    · exact Nat.le_trans hback (by omega)
    · exact Nat.le_trans hpc (by omega)
  | ldVxMem x => rw [completed_ldVxMem]; exact Nat.le_trans hpc (by omega)
  | _ => exact Nat.le_trans hpc (by omega)

/-- Only CALL writes a slot, and it writes the address after itself (R114). -/
theorem slots_completed_le {i : Instr} {s : State} (hpc : s.pc.toNat ≤ 4096)
    (hslots : ∀ k : Fin 16, s.stack[k].toNat ≤ 4096) (k : Fin 16) : (completed i s).stack[k].toNat ≤ 4096 := by
  cases i with
  | call nnn =>
    rw [completed_call]
    split
    · simp only [setPc_stack, push_stack, Fin.getElem_fin, Vector.getElem_set]
      split
      · exact hpc
      · exact hslots k
    · exact hslots k
  | ret => rw [completed_ret]; split <;> exact hslots k
  | _ => rw [(stack_completed s (by exact nofun) (by exact nofun)).2]; exact hslots k

/-! ### what the invariant reads -/

theorem recordTrue_congr {r : FaultRecord} {s t : State} (hv : t.v = s.v) (hi : t.i = s.i) (hpc : t.pc = s.pc)
    (hsp : t.sp = s.sp) (hmem : t.mem = s.mem) (h : recordTrue r s) : recordTrue r t := by
  have hfaults : ∀ i, faultOf i { t with pc := s.pc + 2 } = faultOf i { s with pc := s.pc + 2 } :=
    fun i => faultOf_congr i hv hi rfl hsp
  unfold recordTrue at h ⊢
  rwa [hpc, hfaults, hmem]

/-- The invariant holds of a state that differs in elements it does not read. -/
theorem State.Inv.congr {s t : State} (hs : s.Inv) (hc : t.config = s.config) (hv : t.v = s.v) (hi : t.i = s.i)
    (hpc : t.pc = s.pc) (hsp : t.sp = s.sp) (hstack : t.stack = s.stack) (hfb : t.fb = s.fb) (hmem : t.mem = s.mem)
    (hfault : t.fault = s.fault) : t.Inv where
  config := hc ▸ hs.config
  memory := hmem ▸ hs.memory
  frame := by rw [hfb, hc]; exact hs.frame
  pcBound := hpc ▸ hs.pcBound
  slots k := hstack ▸ hs.slots k
  latch r hr := recordTrue_congr hv hi hpc hsp hmem (hs.latch r (hfault ▸ hr))

/-- Latching a true record keeps the invariant. -/
theorem State.Inv.latched {s : State} (hs : s.Inv) {r : FaultRecord} (hr : recordTrue r s) :
    State.Inv { s with fault := some r } :=
  ⟨hs.config, hs.memory, hs.frame, hs.pcBound, hs.slots, fun _ h => Option.some_inj.mp h ▸ hr⟩

/-- The two bytes at `pc` are not both in memory: the fetch's own record is true. -/
theorem recordTrue_of_noFetch {s : State} (h : 4094 < s.pc.toNat) : recordTrue ⟨.fetchOutOfBounds, s.pc, s.pc⟩ s := by
  unfold recordTrue
  rw [if_pos (show Config.memSize - 2 < s.pc.toNat from h)]

/-- The record the table gives for the instruction at `pc` is true. -/
theorem recordTrue_of_faultOf {s : State} {r : FaultRecord} (hpc : s.pc.toNat ≤ 4094)
    (h : faultOf (decode (opcodeAt s.mem s.pc.toNat)) (s.setPc (s.pc + 2)) = some r) : recordTrue r s := by
  unfold recordTrue
  rw [if_neg (by simp only [Config.memSize]; omega)]
  exact h

/-! ### the engine's step -/

/-- A fault raised while the fetched instruction executes leaves the step's own state, latched (R221). -/
theorem faultedWith_fetched (s : State) (r : FaultRecord) :
    faultedWith (s.setPc (s.pc + 2)) r = { s with fault := some r } := by
  rw [faultedWith, setPc_pc, BitVec.add_sub_cancel]; rfl

/-- What a next state of the engine's step can be: the latch set on the state as it was, with a true record, or the
fetched instruction completed. -/
theorem engineStep_inv {s t : State} (h : engineStep s = .next t) :
    (∃ r, r.fpc = s.pc ∧ recordTrue r s ∧ t = { s with fault := some r }) ∨
    (s.fault = none ∧ s.pc.toNat ≤ 4094 ∧ exec (decode (opcodeAt s.mem s.pc.toNat)) (s.setPc (s.pc + 2)) = .next t ∧
      t = completed (decode (opcodeAt s.mem s.pc.toNat)) (s.setPc (s.pc + 2))) := by
  cases hf : s.fault with
  | some r => rw [engineStep_of_halted hf] at h; cases h
  | none =>
    rcases Nat.lt_or_ge 4094 s.pc.toNat with hpc | hpc
    · rw [engineStep_of_noFetch hf hpc] at h
      cases h
      exact .inl ⟨_, rfl, recordTrue_of_noFetch hpc, rfl⟩
    · rw [engineStep_of_fetch hf hpc] at h
      rcases exec_inv h with ⟨r, hr, rfl⟩ | ⟨-, ht⟩
      · refine .inl ⟨r, ?_, recordTrue_of_faultOf hpc hr, faultedWith_fetched s r⟩
        rw [(faultOf_some hr).1, setPc_pc, BitVec.add_sub_cancel]
      · exact .inr ⟨rfl, hpc, h, ht⟩

theorem State.Inv.engineStep {s t : State} (hs : s.Inv) (h : engineStep s = .next t) : t.Inv ∧ t.config = s.config := by
  rcases engineStep_inv h with ⟨r, -, hr, rfl⟩ | ⟨hf, hpc, he, ht⟩
  · exact ⟨hs.latched hr, rfl⟩
  · have hc : t.config = s.config := (exec_frame he).1
    have hnext : (s.setPc (s.pc + 2)).pc.toNat ≤ 4096 := by rw [setPc_pc, BitVec.toNat_add]; simp; omega
    have hback : ((s.setPc (s.pc + 2)).pc - 2).toNat ≤ 4096 := by rw [setPc_pc, BitVec.add_sub_cancel]; omega
    refine ⟨⟨hc ▸ hs.config, wf_mem_of_exec he hs.memory, ?_, ?_, fun k => ?_, fun r hr => ?_⟩, hc⟩
    · rw [hc]; exact shaped_of_exec (s := s.setPc (s.pc + 2)) he hs.frame
    · rw [ht]; exact pc_completed_le hnext hback hs.slots
    · rw [ht]; exact slots_completed_le hnext hs.slots k
    · rw [ht, fault_completed, setPc_fault, hf] at hr
      cases hr

/-! ### reset, boot and restart -/

/-- The reset machine with any memory in canonical form, any coming turns and any count of draws has the invariant. -/
theorem inv_resetWith_mem {c : Config} (hc : c.wf = true) {m : Memory} (hm : m.wf = true) (n : Nat) (turns : List Turn) :
    State.Inv { State.resetWith c with mem := m, draws := n, agenda := turns } := by
  obtain ⟨-, hrom, -⟩ := (Config.wf_iff c).mp hc
  exact ⟨hc, hm, Frame.shaped_blank _ _, Nat.le_trans (Nat.le_of_lt hrom) (by omega),
    fun k => by simp [State.resetWith], nofun⟩

theorem inv_resetWith {c : Config} (hc : c.wf = true) : (State.resetWith c).Inv := inv_resetWith_mem hc Memory.wf_nil 0 []

/-- A boot that answers a state had a ROM that fits. -/
theorem boot_inv {c : Config} {rom : List Byte} {s : State} (hc : c.wf = true) (h : boot c rom = .ok s) :
    s = { State.resetWith c with mem := loadedMemory c rom [] } := by
  rcases Nat.lt_or_ge 4096 (c.romStart.toNat + rom.length) with hr | hr
  · rw [boot_of_tooLarge hc hr] at h; cases h
  · rw [boot_of_fits hr] at h; cases h; rfl

/-- A restart that answers a state had a ROM that fits. -/
theorem restart_inv {rom : List Byte} {s t : State} (hc : s.config.wf = true) (h : restart rom s = .next t) :
    t = { State.resetWith s.config with mem := loadedMemory s.config rom [], draws := s.draws, agenda := s.agenda } := by
  rcases Nat.lt_or_ge 4096 (s.config.romStart.toNat + rom.length) with hr | hr
  · rw [restart_of_tooLarge s hc hr] at h; cases h
  · rw [restart_of_fits s hr] at h; cases h; rfl

/-! ### every turn -/

theorem State.Inv.takeTurn {turn : Turn} {s t : State} (hs : s.Inv) (h : takeTurn turn s = .next t) :
    t.Inv ∧ t.config = s.config := by
  cases turn with
  | engine => exact hs.engineStep h
  | keyDown | keyUp | tick => cases h; exact ⟨hs.congr rfl rfl rfl rfl rfl rfl rfl rfl rfl, rfl⟩
  | display => cases h; exact ⟨hs, rfl⟩
  | restart rom =>
    rw [restart_inv hs.config h]
    exact ⟨inv_resetWith_mem hs.config (wf_loadedMemory Memory.wf_nil _ _) _ _, rfl⟩

/-- Settles O58: whatever turn is next, it keeps the invariant, which does not read the agenda it is taken from. -/
theorem everyStepKeepsTheInvariant : Obligations.EveryStepKeepsTheInvariant := fun s _ hs h =>
  (hs.congr rfl rfl rfl rfl rfl rfl rfl rfl rfl : (popTurn s).Inv).takeTurn h

/-- Settles O59: everything is zero but `pc`, which the constraints on the parameters bound. -/
theorem resetHasTheInvariant : Obligations.ResetHasTheInvariant :=
  ⟨fun _ hc => ⟨inv_resetWith hc, rfl⟩, inv_resetWith (by decide), rfl⟩

/-- Settles O60: loading writes memory alone, and keeps its canonical form. -/
theorem everyBootHasTheInvariant : Obligations.EveryBootHasTheInvariant := by
  intro c rom s hc h
  rw [boot_inv hc h]
  exact ⟨inv_resetWith_mem hc (wf_loadedMemory Memory.wf_nil c rom) 0 [], rfl, rfl⟩

end Sys2Proof.Machine
end

section
/-! PROOFS. The decoder and the encoder (spec/30_encoding.md R72 to R78): what each group of opcodes decodes to, and that
decoding undoes encoding. -/

namespace Sys2Proof

/-! ### what decodes to what -/

/-- Settles O3: none of the rows before the group's own has its high nibble. -/
theorem highNibbleAloneSelectsTwelveGroups : Obligations.HighNibbleAloneSelectsTwelveGroups := by
  intro op
  refine ⟨?_, ?_, ?_, ?_, ?_, ?_, ?_, ?_, ?_, ?_, ?_, ?_⟩ <;> intro hgroup <;> simp [decode_eq, hgroup]

/-- Group 0 (R76): SYS is what the rows of CLS and RET leave. -/
theorem decode_of_groupZero {op : Word} (hgroup : op.toNat / 4096 = 0) :
    decode op = if op.toNat % 256 = 0xE0 then .cls else if op.toNat % 256 = 0xEE then .ret else .sys (fieldNNN op) := by
  simp [decode_eq, hgroup]

/-- Settles O4: within its group a row is found by its second key, and the ignored bits are not asked for. -/
theorem secondDispatchSelectsTheRest : Obligations.SecondDispatchSelectsTheRest := by
  intro op
  refine ⟨decode_of_groupZero, fun hgroup => ?_, fun hgroup => ?_, fun hgroup => ?_⟩
  · refine ⟨?_, ?_, ?_, ?_, ?_, ?_, ?_, ?_, ?_⟩ <;> intro hkey <;> simp [decode_eq, hgroup, hkey]
  · refine ⟨?_, ?_⟩ <;> intro hkey <;> simp [decode_eq, hgroup, hkey]
  · refine ⟨?_, ?_, ?_, ?_, ?_, ?_, ?_, ?_, ?_⟩ <;> intro hkey <;> simp [decode_eq, hgroup, hkey]

/-- A row of another instruction passes the fallback on when it does not match. -/
theorem ite_eq_nop_iff {c : Prop} [Decidable c] {a b : Instr} (ha : a ≠ .nop) :
    (if c then a else b) = .nop ↔ ¬c ∧ b = .nop := by
  by_cases hc : c <;> simp [hc, ha]

/-- Settles O5: the group decides, and in the three groups that have a fallback the second key does. -/
theorem fallbackOpcodesAreExactlyTheListedOnes : Obligations.FallbackOpcodesAreExactlyTheListedOnes := by
  intro op
  have hgroup : op.toNat / 4096 < 16 := by omega
  have hnibble : op.toNat % 16 < 16 := by omega
  rw [decode_eq]
  generalize op.toNat / 4096 = group at *
  generalize op.toNat % 16 = nibble at *
  interval_cases group <;> simp [ite_eq_nop_iff]
  omega

/-- Settles O7. -/
theorem sampleWordsDecodeAsListed : Obligations.SampleWordsDecodeAsListed := by
  unfold Obligations.SampleWordsDecodeAsListed
  decide

/-! ### the formats read back -/

theorem group_formatA (g : BitVec 4) (nnn : Addr12) : (formatA g nnn).toNat / 4096 = g.toNat := by
  rw [formatA_toNat]; omega

theorem fieldNNN_formatA (g : BitVec 4) (nnn : Addr12) : fieldNNN (formatA g nnn) = nnn :=
  fieldNNN_eq (by rw [formatA_toNat]; omega)

theorem group_formatXK (g : BitVec 4) (x : Reg) (kk : Byte) : (formatXK g x kk).toNat / 4096 = g.toNat := by
  rw [formatXK_toNat]; omega

theorem lowByte_formatXK (g : BitVec 4) (x : Reg) (kk : Byte) : (formatXK g x kk).toNat % 256 = kk.toNat := by
  rw [formatXK_toNat]; omega

theorem fieldX_formatXK (g : BitVec 4) (x : Reg) (kk : Byte) : fieldX (formatXK g x kk) = x :=
  fieldX_eq (by rw [formatXK_toNat]; omega)

theorem fieldKK_formatXK (g : BitVec 4) (x : Reg) (kk : Byte) : fieldKK (formatXK g x kk) = kk :=
  fieldKK_eq (lowByte_formatXK g x kk)

theorem group_formatXY (g : BitVec 4) (x y : Reg) (low : BitVec 4) : (formatXY g x y low).toNat / 4096 = g.toNat := by
  rw [formatXY_toNat]; omega

theorem lowNibble_formatXY (g : BitVec 4) (x y : Reg) (low : BitVec 4) : (formatXY g x y low).toNat % 16 = low.toNat := by
  rw [formatXY_toNat]; omega

theorem fieldX_formatXY (g : BitVec 4) (x y : Reg) (low : BitVec 4) : fieldX (formatXY g x y low) = x :=
  fieldX_eq (by rw [formatXY_toNat]; omega)

theorem fieldY_formatXY (g : BitVec 4) (x y : Reg) (low : BitVec 4) : fieldY (formatXY g x y low) = y :=
  fieldY_eq (by rw [formatXY_toNat]; omega)

theorem fieldN_formatXY (g : BitVec 4) (x y : Reg) (n : Fin 16) : fieldN (formatXY g x y (regBits n)) = n :=
  fieldN_eq (by rw [lowNibble_formatXY, regBits_toNat])

/-! ### decoding undoes encoding -/

theorem sysOperandOk_iff (nnn : Addr12) :
    sysOperandOk nnn = true ↔ nnn.toNat % 256 ≠ 0xE0 ∧ nnn.toNat % 256 ≠ 0xEE := by
  simp [sysOperandOk, ← BitVec.toNat_inj, BitVec.extractLsb'_toNat]

/-- The opcode of an instruction lies in the instruction's group, has its second key and carries its operands, so the
decoder comes back to the same row with the same operands. -/
theorem decode_encode {i : Instr} (hi : i.wellFormed = true) : decode (encode i) = i := by
  cases i with
  | cls | ret | nop => rfl
  | sys nnn =>
    obtain ⟨hcls, hret⟩ := (sysOperandOk_iff nnn).mp hi
    have hlow : (formatA 0 nnn).toNat % 256 = nnn.toNat % 256 := by rw [formatA_toNat]; simp
    rw [encode, decode_of_groupZero (group_formatA 0 nnn), hlow, if_neg hcls, if_neg hret, fieldNNN_formatA]
  | jp | call | ldI | jpV0 => simp [decode_eq, encode, group_formatA, fieldNNN_formatA]
  | seByte | sneByte | ldByte | addByte | rnd => simp [decode_eq, encode, group_formatXK, fieldX_formatXK, fieldKK_formatXK]
  | skp | sknp | ldVxDT | ldVxK | ldDTVx | ldSTVx | addIVx | ldFVx | ldBVx | ldMemVx | ldVxMem =>
    simp [decode_eq, encode, group_formatXK, lowByte_formatXK, fieldX_formatXK]
  | seReg | sneReg => simp [decode_eq, encode, group_formatXY, fieldX_formatXY, fieldY_formatXY]
  | ldReg | orReg | andReg | xorReg | addReg | subReg | shr | subnReg | shl =>
    simp [decode_eq, encode, group_formatXY, lowNibble_formatXY, fieldX_formatXY, fieldY_formatXY]
  | drw => simp [decode_eq, encode, group_formatXY, fieldX_formatXY, fieldY_formatXY, fieldN_formatXY]

/-- Settles O1: the opcode decodes back, and its two bytes are the opcode again. -/
theorem decodeOfEncodeIsTheInstruction : Obligations.DecodeOfEncodeIsTheInstruction := by
  intro i hi
  refine ⟨decode_encode hi, ?_⟩
  rw [encodeBytes, decodeBytes_bytesOfOpcode, decode_encode hi]

theorem wellFormed_ite {c : Prop} [Decidable c] {a b : Instr} (ha : a.wellFormed = true) (hb : b.wellFormed = true) :
    (if c then a else b).wellFormed = true := by
  split <;> assumption

/-- Only SYS can fail to be well-formed, and the decoder reaches its row after those of CLS and RET. -/
theorem wellFormed_decode (op : Word) : (decode op).wellFormed = true := by
  by_cases hgroup : op.toNat / 4096 = 0
  · rw [decode_of_groupZero hgroup]
    split_ifs with hcls hret
    · rfl
    · rfl
    · refine (sysOperandOk_iff _).mpr ?_
      rw [fieldNNN_toNat]
      omega
  · rw [decode_eq]
    simp only [hgroup, false_and, if_false]
    repeat refine wellFormed_ite rfl ?_
    rfl

/-- Settles O6: what the decoder gives is well-formed, so encoding it and decoding again gives it back. -/
theorem decodedInstructionsAreWellFormed : Obligations.DecodedInstructionsAreWellFormed :=
  fun op => ⟨wellFormed_decode op, decode_encode (wellFormed_decode op)⟩

end Sys2Proof
end

section
/-! PROOFS. The step of the system (spec/40_cycle_and_system.md R100, spec/60_exceptions.md, spec/00_scope.md R7): the
engine's step, its faults, and the other agents' turns. -/

namespace Sys2Proof.Machine

/-! ### the engine's step -/

theorem step_of_fetch {s : State} (hf : s.fault = none) (he : enginesTurn s = true) (hpc : s.pc.toNat ≤ 4094) :
    step s = exec (decode (opcodeAt s.mem s.pc.toNat)) { s with pc := s.pc + 2, agenda := s.agenda.tail } :=
  (step_of_enginesTurn he).trans (engineStep_of_fetch (s := popTurn s) hf hpc)

theorem step_of_noFetch {s : State} (hf : s.fault = none) (he : enginesTurn s = true) (hpc : 4094 < s.pc.toNat) :
    step s = .next { s with fault := some ⟨.fetchOutOfBounds, s.pc, s.pc⟩, agenda := s.agenda.tail } :=
  (step_of_enginesTurn he).trans (engineStep_of_noFetch (s := popTurn s) hf hpc)

/-- Settles O8: the opcode at `pc` is the one whose number the two bytes give. -/
theorem stepRunsTheDecodedInstruction : Obligations.StepRunsTheDecodedInstruction := by
  intro s op hf he hpc hop
  rw [step_of_fetch hf he hpc, opcodeAt_eq hop]

/-- Settles O9: the fetch check fails before anything else happens. -/
theorem fetchOutsideMemoryLatchesCauseOne : Obligations.FetchOutsideMemoryLatchesCauseOne :=
  fun _ hf he hpc => ⟨_, step_of_noFetch hf he hpc, rfl, rfl⟩

/-- Settles O11: the fetch faults or an instruction is executed, and no instruction stops the model. -/
theorem engineStepAlwaysAnswersANextState : Obligations.EngineStepAlwaysAnswersANextState := by
  intro s hf he
  rcases Nat.lt_or_ge 4094 s.pc.toNat with hpc | hpc
  · exact ⟨_, step_of_noFetch hf he hpc, rfl⟩
  · rw [step_of_fetch hf he hpc]
    obtain ⟨t, ht⟩ := exec_total (decode (opcodeAt s.mem s.pc.toNat)) { s with pc := s.pc + 2, agenda := s.agenda.tail }
    obtain ⟨-, hagenda, -⟩ := exec_frame ht
    exact ⟨t, ht, hagenda⟩

/-! ### faults -/

/-- The fault port shows the number R226 gives the cause. -/
theorem faultPort_of_latched {s : State} {r : FaultRecord} (h : s.fault = some r) : faultPort s = some r.cause.code := by
  rw [faultPort, h]; rfl

theorem faultPort_of_none {s : State} (h : s.fault = none) : faultPort s = none := by rw [faultPort, h]; rfl

/-- Settles O12: the latch after an instruction is what the table gives, and the table never gives the fetch's cause. -/
theorem executionFaultsAreExactlyTheTable : Obligations.ExecutionFaultsAreExactlyTheTable := by
  intro i s hf
  obtain ⟨t, ht⟩ := exec_total i s
  have hlatch : t.fault = faultOf i s := exec_inv_fault hf ht
  refine ⟨t, ht, hlatch, faultPort_of_none, fun r hr => ⟨(faultOf_some (hlatch ▸ hr)).2, ?_⟩⟩
  rw [faultPort_of_latched hr]
  cases r.cause <;> rfl

/-- Settles O13: of the two outcomes of the engine's step, the completed instruction leaves nothing latched. -/
theorem faultingStepChangesOnlyTheLatch : Obligations.FaultingStepChangesOnlyTheLatch := by
  intro s t hf he h ht
  rw [step_of_enginesTurn he] at h
  rcases engineStep_inv h with ⟨r, hr, -, rfl⟩ | ⟨-, -, -, hc⟩
  · exact ⟨rfl, fun _ h' => Option.some_inj.mp h' ▸ hr⟩
  · refine absurd ?_ ht
    rw [hc, fault_completed]
    exact hf

/-- A turn of an agent that is neither the engine nor the caller writes the keys and the timers alone. -/
theorem takeTurn_of_collaborator {turn : Turn} {s t : State} (h : takeTurn turn s = .next t) (hengine : turn ≠ .engine)
    (hrestart : ∀ rom, turn ≠ .restart rom) : t = { s with keys := t.keys, dt := t.dt, st := t.st } := by
  cases turn with
  | engine => exact absurd rfl hengine
  | restart rom => exact absurd rfl (hrestart rom)
  | keyDown | keyUp | tick | display => cases h; rfl

/-- With a turn on the agenda that is not the engine's, that turn is taken. -/
theorem exists_turn_of_not_enginesTurn {s : State} (h : enginesTurn s = false) :
    ∃ turn rest, s.agenda = turn :: rest ∧ turn ≠ .engine := by
  unfold enginesTurn at h
  split at h
  · cases h
  · exact ⟨_, _, ‹_›, by simpa using h⟩

/-- Settles O10: the engine has no step, and of the other turns only the caller's writes more than the keys and the
timers. -/
theorem haltedMachineIsFrozenUntilReset : Obligations.HaltedMachineIsFrozenUntilReset := by
  intro s r hf
  have hhalt : enginesTurn s = true → step s = .fault (.halted r) := fun he =>
    (step_of_enginesTurn he).trans (engineStep_of_halted (s := popTurn s) hf)
  refine ⟨hhalt, fun t h => ?_⟩
  cases he : enginesTurn s with
  | true => rw [hhalt he] at h; cases h
  | false =>
    obtain ⟨turn, rest, ha, hturn⟩ := exists_turn_of_not_enginesTurn he
    by_cases hrestart : ∃ rom, turn = .restart rom
    · obtain ⟨rom, rfl⟩ := hrestart
      exact .inl ⟨rom, rest, ha⟩
    · rw [step_of_agenda ha] at h
      exact .inr (takeTurn_of_collaborator (s := popTurn s) h hturn (not_exists.mp hrestart))

/-- Settles O51: the wait puts `pc` back where the fetch took it from. -/
theorem waitingStepChangesNothing : Obligations.WaitingStepChangesNothing := by
  intro x s hf he hpc hop hkeys
  rw [step_of_fetch hf he hpc, hop]
  refine (exec_ldVxK_of_none (s := (popTurn s).setPc (s.pc + 2)) x hkeys).trans ?_
  rw [setPc_pc, BitVec.add_sub_cancel]; rfl

/-! ### the other agents -/

/-- Settles O53: both timers step together, each as `countDown` says. -/
theorem tickCountsDownAndStopsAtZero : Obligations.TickCountsDownAndStopsAtZero := by
  intro s rest h
  refine ⟨_, step_of_agenda h, countDown_toNat s.dt, countDown_toNat s.st, ?_⟩
  simp [tick, popTurn, h]

/-- Settles O54: turn by turn, the state each writes. -/
theorem collaboratorsTouchOnlyTheirOwnState : Obligations.CollaboratorsTouchOnlyTheirOwnState := by
  intro s rest
  refine ⟨fun k h => ⟨_, step_of_agenda h, ?_⟩, fun k h => ⟨_, step_of_agenda h, ?_⟩,
    fun h => ⟨_, step_of_agenda h, ?_⟩, fun h => ?_⟩
  · simp [keyDown, setKey, popTurn, h]
  · simp [keyUp, setKey, popTurn, h]
  · simp [tick, popTurn, h]
  · rw [step_of_agenda h, takeTurn, popTurn_eq, h]; rfl

/-! ### reset, boot and restart -/

/-- Settles O55: reset is built of zeros, and the defaults are written down. -/
theorem resetZeroesTheMachine : Obligations.ResetZeroesTheMachine := by
  refine ⟨fun c => ⟨fun r => ?_, rfl, rfl, rfl, fun k => ?_, rfl, rfl, Frame.shaped_blank _ _, Frame.cell_blank _ _,
    fun k => ?_, fun _ => rfl, rfl, rfl⟩, rfl, by decide, rfl, rfl, rfl, rfl⟩
  · simp [State.reg, State.resetWith]
  · simp [State.resetWith]
  · simp [State.resetWith]

/-- Settles O56: what memory holds after the load, place by place; the default font is compared with R255's table glyph
byte by glyph byte. -/
theorem bootLoadsTheRomAndTheFont : Obligations.BootLoadsTheRomAndTheFont := by
  refine ⟨fun c rom hc => ⟨boot_of_tooLarge hc, fun h => ⟨_, boot_of_fits h, ?_, ?_, ?_, rfl⟩⟩, by decide⟩
  · exact fun k b hk => read_loadedMemory_rom Memory.wf_nil hc h hk
  · exact read_loadedMemory_font Memory.wf_nil hc rom
  · exact fun a hfont hrom => read_loadedMemory_other [] c rom hfont hrom

/-- Settles O57: the caller's turn is the boot of the same parameters, with the model's own fields going on. -/
theorem restartIsANewBoot : Obligations.RestartIsANewBoot := by
  intro s rom rest hc ha
  rw [step_of_agenda ha]
  refine ⟨fun h => ⟨_, _, boot_of_fits h, restart_of_fits (popTurn s) h, ?_⟩, restart_of_tooLarge (popTurn s) hc⟩
  simp [ha]

end Sys2Proof.Machine
end

section
/-! PROOFS. Rules over all instructions, one element of state at a time (spec/10_state.md R23 to R36). -/

namespace Sys2Proof.Machine

/-! ### `VF` (R23, R24) -/

/-- On a shaped framebuffer DRW collides exactly if some cell goes from 1 to 0 (R182). -/
theorem collides_iff_unlit (x y : Reg) (n : Fin 16) {s : State} (hs : s.fb.shaped s.config.width s.config.height = true) :
    (drawSprite s x y n).2 = true ↔
      ∃ row col, s.fb.cell row col = true ∧ (drawn x y n s).fb.cell row col = false := by
  obtain ⟨-, hcell, hhit⟩ := drawSprite_spec x y n hs
  rw [hhit, fb_drawn]
  constructor
  · rintro ⟨row, col, hrow, hcol, hlit, hbit⟩
    exact ⟨row, col, hlit, by rw [hcell row col hrow hcol, hlit, hbit]; rfl⟩
  · rintro ⟨row, col, hlit, hunlit⟩
    obtain ⟨hrow, hcol⟩ := Frame.shaped.lt_of_cell hs hlit
    rw [hcell row col hrow hcol, hlit] at hunlit
    exact ⟨row, col, hrow, hcol, hlit, by simpa using hunlit⟩

theorem val_lt_of_ne_vf {x : Reg} (hx : x ≠ 15) : x.val < vf.val :=
  Nat.lt_of_le_of_ne (Nat.le_of_lt_succ x.isLt) fun h => hx (Fin.ext h)

theorem collisionFlag_eq_one_iff (b : Bool) : collisionFlag b = 1 ↔ b = true := flagByte_eq_one_iff b

theorem collisionFlag_eq_zero_iff (b : Bool) : collisionFlag b = 0 ↔ b = false := flagByte_eq_zero_iff b

section
variable (s : State) (b : Byte)

/-! An instruction that does not name register 15 reads past the byte that `VF` holds, and either leaves it or writes
the flag over it. -/

theorem reg_setReg_vf {x : Reg} (hx : x ≠ 15) : (s.setReg vf b).reg x = s.reg x := reg_setReg_of_ne s b hx

theorem setReg_setReg_vf {x : Reg} (hx : x ≠ 15) (c : Byte) :
    (s.setReg vf b).setReg x c = (s.setReg x c).setReg vf b := by
  have hne : vf.val ≠ x.val := fun h => hx (Fin.ext h.symm)
  simp only [State.setReg, Vector.set_comm _ _ hne]

theorem setReg_vf_setReg_vf (c : Byte) : (s.setReg vf b).setReg vf c = s.setReg vf c := by
  simp only [State.setReg, Vector.set_set]

theorem setResultThenFlag_setReg_vf {x : Reg} (hx : x ≠ 15) (c f : Byte) :
    (s.setReg vf b).setResultThenFlag x c f = s.setResultThenFlag x c f := by
  rw [State.setResultThenFlag, setReg_setReg_vf s b hx, setReg_vf_setReg_vf, State.setResultThenFlag]

theorem skipIf_setReg_vf (c : Bool) : (s.setReg vf b).skipIf c = (s.skipIf c).setReg vf b := by cases c <;> rfl

theorem restoredRegs_setReg_vf {x : Reg} (hx : x ≠ 15) :
    restoredRegs (s.setReg vf b) x = (restoredRegs s x).set vf.val b := by
  apply Vector.ext
  intro k hk
  rw [Vector.getElem_set, restoredRegs, restoredRegs, Vector.getElem_ofFn, Vector.getElem_ofFn]
  by_cases h : vf.val = k
  · subst h
    rw [if_neg (Nat.not_le.mpr (val_lt_of_ne_vf hx)), if_pos rfl]
    exact reg_setReg_same s vf b
  · rw [if_neg h, reg_setReg_of_ne s b fun he => h (congrArg Fin.val he).symm]; rfl

theorem savedBytes_setReg_vf {x : Reg} (hx : x ≠ 15) : savedBytes (s.setReg vf b) x = savedBytes s x := by
  rw [savedBytes, setReg_v, Vector.toList_set, List.take_set_of_le (val_lt_of_ne_vf hx), savedBytes]

theorem drawSprite_setReg_vf {x y : Reg} (n : Fin 16) (hx : x ≠ 15) (hy : y ≠ 15) :
    drawSprite (s.setReg vf b) x y n = drawSprite s x y n := by
  simp only [drawSprite, anchor, reg_setReg_vf s b hx, reg_setReg_vf s b hy]; rfl

theorem faultOf_setReg_vf {i : Instr} (hi : namesVf i = false) : faultOf i (s.setReg vf b) = faultOf i s := by
  cases i with
  | skp x | sknp x =>
    have hx : x ≠ 15 := by simpa [namesVf] using hi
    simp only [faultOf, reg_setReg_vf s b hx, setReg_pc]
  | _ => rfl

theorem completed_setReg_vf {i : Instr} (hi : namesVf i = false) :
    completed i (s.setReg vf b) = completed i s ∨ completed i (s.setReg vf b) = (completed i s).setReg vf b := by
  cases i with
  | addReg x y | subReg x y | subnReg x y =>
    obtain ⟨hx, hy⟩ : x ≠ 15 ∧ y ≠ 15 := by simpa [namesVf] using hi
    left
    simp only [completed, exec, execAddReg, execSubReg, execSubnReg, reg_setReg_vf s b hx, reg_setReg_vf s b hy,
      setResultThenFlag_setReg_vf s b hx]
  | shr x | shl x =>
    have hx : x ≠ 15 := by simpa [namesVf] using hi
    left
    simp only [completed, exec, execShr, execShl, reg_setReg_vf s b hx, setResultThenFlag_setReg_vf s b hx]
  | drw x y n =>
    obtain ⟨hx, hy⟩ : x ≠ 15 ∧ y ≠ 15 := by simpa [namesVf] using hi
    left
    simp only [completed, drawn, drawSprite_setReg_vf s b n hx hy]
    exact setReg_vf_setReg_vf { s with fb := (drawSprite s x y n).1 } b _
  | ldByte x kk | addByte x kk | ldVxDT x =>
    have hx : x ≠ 15 := by simpa [namesVf] using hi
    right
    simp only [completed, exec, execLdByte, execAddByte, execLdVxDT, reg_setReg_vf s b hx, setReg_setReg_vf s b hx,
      setReg_dt]
  | rnd x kk =>
    have hx : x ≠ 15 := by simpa [namesVf] using hi
    right
    simp only [completed, exec, execRnd, setReg_setReg_vf s b hx, setReg_draws]; rfl
  | ldReg x y | orReg x y | andReg x y | xorReg x y =>
    obtain ⟨hx, hy⟩ : x ≠ 15 ∧ y ≠ 15 := by simpa [namesVf] using hi
    right
    simp only [completed, exec, execLdReg, execOrReg, execAndReg, execXorReg, reg_setReg_vf s b hx, reg_setReg_vf s b hy,
      setReg_setReg_vf s b hx]
  | seByte x kk | sneByte x kk =>
    have hx : x ≠ 15 := by simpa [namesVf] using hi
    right
    simp only [completed, exec, execSeByte, execSneByte, reg_setReg_vf s b hx, skipIf_setReg_vf]
  | seReg x y | sneReg x y =>
    obtain ⟨hx, hy⟩ : x ≠ 15 ∧ y ≠ 15 := by simpa [namesVf] using hi
    right
    simp only [completed, exec, execSeReg, execSneReg, reg_setReg_vf s b hx, reg_setReg_vf s b hy, skipIf_setReg_vf]
  | skp x | sknp x =>
    have hx : x ≠ 15 := by simpa [namesVf] using hi
    right
    simp only [completed_skp, completed_sknp, reg_setReg_vf s b hx, skipIf_setReg_vf, setReg_keys]
  | ldVxK x =>
    have hx : x ≠ 15 := by simpa [namesVf] using hi
    right
    simp only [completed_ldVxK, firstPressed, setReg_keys]
    cases s.keys.toList.findIdx? id with
    | none => rfl
    | some k => exact setReg_setReg_vf s b hx _
  | addIVx x | ldFVx x | ldDTVx x | ldSTVx x | ldBVx x =>
    have hx : x ≠ 15 := by simpa [namesVf] using hi
    right
    simp only [completed, exec, execAddIVx, execLdFVx, execLdDTVx, execLdSTVx, reg_setReg_vf s b hx]; rfl
  | ldMemVx x =>
    have hx : x ≠ 15 := by simpa [namesVf] using hi
    right
    simp only [completed, savedBytes_setReg_vf s b hx]; rfl
  | ldVxMem x =>
    have hx : x ≠ 15 := by simpa [namesVf] using hi
    right
    rw [completed_ldVxMem, completed_ldVxMem, restoredRegs_setReg_vf s b hx]; rfl
  | jpV0 nnn =>
    right
    simp only [completed, exec, execJpV0, reg_setReg_vf s b (show (0 : Reg) ≠ 15 by decide)]; rfl
  | call nnn => right; rw [completed_call, completed_call, apply_dite (State.setReg · vf b)]; rfl
  | ret => right; rw [completed_ret, completed_ret, apply_dite (State.setReg · vf b)]; rfl
  | cls | sys | jp | ldI | nop => exact .inr rfl

end

/-- What an instruction that does not name register 15 answers with another byte in `VF`: the same, but for `VF`. -/
theorem exec_setReg_vf {i : Instr} {s t : State} (b : Byte) (hi : namesVf i = false) (h : exec i s = .next t) :
    exec i (s.setReg vf b) = .next t ∨ exec i (s.setReg vf b) = .next (t.setReg vf b) := by
  rcases exec_inv h with ⟨r, hr, rfl⟩ | ⟨hr, rfl⟩
  · exact .inr (exec_of_fault ((faultOf_setReg_vf s b hi).trans hr))
  · rw [exec_of_noFault ((faultOf_setReg_vf s b hi).trans hr)]
    exact (completed_setReg_vf s b hi).imp (congrArg _) (congrArg _)

theorem reg_completed_call (nnn : Addr12) (s : State) (r : Reg) : (completed (.call nnn) s).reg r = s.reg r := by
  rw [completed_call]; split <;> rfl

theorem reg_completed_ret (s : State) (r : Reg) : (completed .ret s).reg r = s.reg r := by
  rw [completed_ret]; split <;> rfl

/-- What a register holds after a restore (R170). -/
theorem reg_restored (s : State) (x k : Reg) : State.reg { s with v := restoredRegs s x } k =
    if k.val ≤ x.val then s.mem.read (s.i.toNat + k.val) else s.reg k :=
  reg_restoredRegs s { s with v := restoredRegs s x } x k rfl

/-- Settles O14: the flag is what each writer's last write put into `VF`, and the other instructions write another
register or none. -/
theorem flagRegisterWritersAndValues : Obligations.FlagRegisterWritersAndValues := by
  refine ⟨fun i s t hf h => ⟨fun ht => ?_, fun ht => ?_⟩, fun i s t b hi h => ?_⟩
  · obtain ⟨r, hr⟩ := Option.ne_none_iff_exists'.mp ht
    rw [eq_faultedWith hf h hr]; rfl
  · cases eq_completed hf h ht
    cases i with
    | addReg x y => exact (reg_setResultThenFlag_vf ..).trans (carryFlag_eq _ _)
    | subReg x y => exact (reg_setResultThenFlag_vf ..).trans (subFlag_eq _ _)
    | subnReg x y => exact (reg_setResultThenFlag_vf ..).trans (subnFlag_eq _ _)
    | shr x => exact (congrArg _ (reg_setResultThenFlag_vf ..)).trans (shrFlag_toNat _)
    | shl x => exact (congrArg _ (reg_setResultThenFlag_vf ..)).trans (shlFlag_toNat _)
    | drw x y n =>
      intro hs
      have hhit := collides_iff_unlit x y n hs
      refine ⟨fun hunlit => (vf_drawn x y n s).trans ?_, fun hkept => (vf_drawn x y n s).trans ?_⟩
      · exact (collisionFlag_eq_one_iff _).mpr (hhit.mpr hunlit)
      · exact (collisionFlag_eq_zero_iff _).mpr (Bool.not_eq_true _ ▸ mt hhit.mp hkept)
    | ldByte | addByte | ldReg | orReg | andReg | xorReg | rnd | ldVxDT => exact fun hx => reg_setReg_of_ne s _ (Ne.symm hx)
    | ldVxK x =>
      intro hx
      rw [completed_ldVxK]
      cases firstPressed s with
      | none => rfl
      | some k => exact reg_setReg_of_ne s _ (Ne.symm hx)
    | ldVxMem x =>
      intro hx
      rw [completed_ldVxMem, reg_restored, if_neg (Nat.not_le.mpr (val_lt_of_ne_vf hx))]
    | seByte | sneByte | seReg | sneReg | skp | sknp => exact reg_skipIf _ _ _
    | call nnn => exact reg_completed_call nnn s vf
    | ret => exact reg_completed_ret s vf
    | _ => rfl
  · rcases exec_setReg_vf b hi h with hu | hu
    · exact ⟨t, hu, rfl, fun _ _ => rfl⟩
    · exact ⟨_, hu, setReg_eq t vf b, fun r hr => reg_setReg_of_ne t b hr⟩

/-! ### `I` (R25) -/

/-- Settles O15: the three writers one by one, and the table's row of the four instructions that use `I`. -/
theorem indexPointerWritersAndUse : Obligations.IndexPointerWritersAndUse := by
  intro i s t hf h
  refine ⟨?_, fun hld hadd hglyph => ?_, fun hpast hreach hrows => ?_, ?_, ?_⟩
  · rintro nnn rfl
    cases h
    exact zextAddr_toNat nnn
  · rcases exec_inv h with ⟨r, -, rfl⟩ | ⟨-, rfl⟩
    · rfl
    · exact i_completed s hld hadd hglyph
  · rw [exec_inv_fault hf h]
    cases i with
    | drw x y n =>
      have hn : n.val ≠ 0 := fun h0 => hrows x y (congrArg _ (Fin.ext h0))
      exact ⟨_, if_pos (by simp only [Config.memSize]; omega), rfl⟩
    | ldBVx | ldMemVx | ldVxMem => exact ⟨_, if_pos (Nat.le_add_right_of_le hpast), rfl⟩
    | _ => exact Bool.noConfusion hreach
  · rintro x rfl
    cases h
    refine ⟨hf, fun hfits => ?_⟩
    rw [setI_i, BitVec.toNat_add, zextByte_toNat, Nat.mod_eq_of_lt hfits]
  · rintro x rfl hc
    cases h
    obtain ⟨hfont, hrom, -⟩ := (Config.wf_iff _).mp hc
    exact glyphAddress_toNat (by omega) (s.reg x)

/-! ### SP and the stack (R29, R30) -/

/-- Settles O16: the two ways of CALL and of RET, and the frame of every other instruction. -/
theorem stackWritersAndBounds : Obligations.StackWritersAndBounds := by
  intro i s t hf h
  cases i with
  | call nnn =>
    rcases exec_call_cases nnn s with ⟨hsp, hs⟩ | ⟨hsp, hs⟩ <;> rw [hs] at h <;> cases h
    · refine ⟨fun _ => ⟨rfl, hf, fun k hk => ?_⟩, fun hfull => absurd hfull (Nat.ne_of_lt hsp)⟩
      simp [Ne.symm hk]
    · exact ⟨fun hroom => absurd hsp (Nat.ne_of_lt hroom), fun _ => ⟨rfl, rfl, _, rfl, rfl⟩⟩
  | ret =>
    rcases exec_ret_cases s with ⟨hsp, hs⟩ | ⟨hsp, hs⟩ <;> rw [hs] at h <;> cases h
    · exact ⟨rfl, fun _ => ⟨Nat.sub_add_cancel hsp, hf⟩, fun hempty => absurd hempty (Nat.ne_of_gt hsp)⟩
    · exact ⟨rfl, fun hheld => absurd hsp (Nat.ne_of_gt hheld), fun _ => ⟨rfl, _, rfl, rfl⟩⟩
  | _ =>
    rcases exec_inv h with ⟨r, -, rfl⟩ | ⟨-, ht⟩
    · exact ⟨rfl, rfl⟩
    · rw [ht]
      exact stack_completed s nofun nofun

/-! ### the timers (R34) -/

/-- Of the turns only the engine's, the clock's and the caller's can change a timer. -/
theorem takeTurn_timers {turn : Turn} {s t : State} (h : takeTurn turn s = .next t) (hengine : turn ≠ .engine)
    (htick : turn ≠ .tick) (hrestart : ∀ rom, turn ≠ .restart rom) : t.dt = s.dt ∧ t.st = s.st := by
  cases turn with
  | engine => exact absurd rfl hengine
  | tick => exact absurd rfl htick
  | restart rom => exact absurd rfl (hrestart rom)
  | keyDown | keyUp | display => cases h; exact ⟨rfl, rfl⟩

theorem countDown_add_one {b : Byte} (h : b ≠ 0) : (countDown b).toNat + 1 = b.toNat := by
  have : b.toNat ≠ 0 := fun h0 => h (BitVec.eq_of_toNat_eq h0)
  rw [countDown_toNat]
  omega

/-- Settles O17: the frames and the independence of the timers' contents, then the turns. -/
theorem timersAreOnlyCopiedByTheEngine : Obligations.TimersAreOnlyCopiedByTheEngine := by
  refine ⟨fun i s t h => ⟨?_, ?_, dt_of_exec h, ?_, st_of_exec h⟩, fun i s b => exec_with_dt s b,
    fun i s b => exec_with_st s b, fun x s b => rfl, fun s t h he htick hrestart => ?_,
    fun s => ⟨countDown_add_one, countDown_add_one⟩⟩
  · rintro x rfl
    cases h
    exact reg_setReg_same s x s.dt
  · rintro x rfl
    cases h; rfl
  · rintro x rfl
    cases h; rfl
  · obtain ⟨turn, rest, ha, hengine⟩ := exists_turn_of_not_enginesTurn he
    rw [step_of_agenda ha] at h
    simp only [ha, List.head?_cons, ne_eq, Option.some.injEq] at htick hrestart
    exact takeTurn_timers (s := popTurn s) h hengine htick hrestart

/-! ### the framebuffer (R36) -/

/-- Lines of one length, joined: a cell's place is its row times the length, plus its column. -/
theorem getElem?_flatten_of_shaped {width height : Nat} {fb : Frame} (h : fb.shaped width height = true) {row col : Nat}
    (hrow : row < height) (hcol : col < width) : fb.flatten[row * width + col]? = some (fb.cell row col) := by
  induction fb generalizing row height with
  | nil =>
    obtain ⟨hlen, -⟩ := Frame.shaped_iff.mp h
    exact absurd hrow (by simp [← hlen])
  | cons line rest ih =>
    obtain ⟨hlen, hline⟩ := Frame.shaped_iff.mp h
    have hwidth : line.length = width := hline 0 line rfl
    cases row with
    | zero =>
      have hcol' : col < line.length := hwidth ▸ hcol
      rw [Frame.cell_of_some (l := line) rfl, Line.cell_of_lt line hcol']
      simp [List.getElem?_append_left, hcol']
    | succ row =>
      have hrest : Frame.shaped width rest.length rest = true :=
        Frame.shaped_iff.mpr ⟨rfl, fun k l hl => hline (k + 1) l hl⟩
      have hplace : (row + 1) * width + col = line.length + (row * width + col) := by rw [hwidth]; ring
      rw [hplace, List.flatten_cons, List.getElem?_append_right (Nat.le_add_right _ _), Nat.add_sub_cancel_left]
      exact ih hrest (by simp only [List.length_cons] at hlen; omega)

/-- Settles O18: the frame and the independence of the framebuffer's contents; CLS writes without reading. -/
theorem framebufferIsMutatedByClearAndDrawAlone : Obligations.FramebufferIsMutatedByClearAndDrawAlone :=
  ⟨fun _ _ _ h => fb_of_exec h, fun _ s f => exec_with_fb s f, fun _ _ => rfl,
    fun _ _ _ hs hrow hcol => getElem?_flatten_of_shaped hs hrow hcol⟩

/-! ### `pc` (R27) -/

/-- Settles O21: a fault puts `pc` back; an instruction that completes writes it if it is a transfer of control. -/
theorem programCounterAfterEveryInstruction : Obligations.ProgramCounterAfterEveryInstruction := by
  intro i s t hf h
  refine ⟨fun ht => ?_, fun ht => ?_⟩
  · obtain ⟨r, hr⟩ := Option.ne_none_iff_exists'.mp ht
    rw [eq_faultedWith hf h hr]; rfl
  · cases i with
    | ret =>
      intro k hk
      rw [exec_ret_of_held (by omega)] at h
      cases h
      simp [State.pop, ← hk]
    | call nnn =>
      rcases exec_call_cases nnn s with ⟨hsp, hs⟩ | ⟨hsp, hs⟩ <;> rw [hs] at h <;> cases h
      · exact zextAddr_toNat nnn
      · cases ht
    | jp nnn => cases h; exact zextAddr_toNat nnn
    | jpV0 nnn => cases h; exact offsetTarget_toNat nnn (s.reg 0)
    | seByte | sneByte | seReg | sneReg => cases h; simp [skipIf_pc]
    | skp x =>
      intro k hk
      rw [exec_skp_of_key hk.symm] at h
      cases h; exact skipIf_pc s _
    | sknp x =>
      intro k hk
      rw [exec_sknp_of_key hk.symm] at h
      cases h; simp [skipIf_pc]
    | ldVxK x =>
      rcases exec_ldVxK_cases x s with ⟨k, hk, -, hs⟩ | ⟨hnone, hs⟩ <;> rw [hs] at h <;> cases h
      · rw [if_pos ⟨k, hk⟩]; rfl
      · rw [if_neg (by simp [hnone])]; rfl
    | ldVxMem x => rw [eq_completed hf h ht, completed_ldVxMem]
    | _ => rw [eq_completed hf h ht]; rfl

end Sys2Proof.Machine
end

section
/-! PROOFS. The ALU (spec/42_alu.md) and the random byte: the register each instruction writes, and no other. -/

namespace Sys2Proof.Machine

/-! ### one register written -/

theorem changesOnlyRegs_setReg (s : State) (x : Reg) (b : Byte) : ChangesOnlyRegs (· = x) s (s.setReg x b) :=
  ⟨fun _ h => reg_setReg_of_ne s b h, fun _ => rfl, setReg_eq s x b⟩

/-- With register 15 as the destination of a result and a flag, the flag alone is written. -/
theorem setResultThenFlag_vf (s : State) (b f : Byte) : s.setResultThenFlag vf b f = s.setReg vf f :=
  setReg_vf_setReg_vf s b f

/-- Settles O22: each is one register write, of the value bit by bit. -/
theorem loadsAndLogicWriteOnlyTheirRegister : Obligations.LoadsAndLogicWriteOnlyTheirRegister := by
  intro x y kk s
  refine ⟨⟨_, rfl, changesOnlyRegs_setReg s x _, reg_setReg_same s x _⟩,
    ⟨_, rfl, changesOnlyRegs_setReg s x _, reg_setReg_same s x _⟩,
    ⟨_, rfl, changesOnlyRegs_setReg s x _, fun b _ => ?_⟩, ⟨_, rfl, changesOnlyRegs_setReg s x _, fun b _ => ?_⟩,
    ⟨_, rfl, changesOnlyRegs_setReg s x _, fun b _ => ?_⟩⟩
  · rw [reg_setReg_same, BitVec.getLsbD_or]
  · rw [reg_setReg_same, BitVec.getLsbD_and]
  · rw [reg_setReg_same, BitVec.getLsbD_xor]

/-- Settles O23: the sum of two bytes, as numbers, wraps at 256. -/
theorem addByteWrapsAndSetsNoFlag : Obligations.AddByteWrapsAndSetsNoFlag :=
  fun x kk s => ⟨_, rfl, changesOnlyRegs_setReg s x _, by rw [reg_setReg_same, BitVec.toNat_add]⟩

/-- Settles O24: the result is written first, so with another register than `VF` it stays, and the flag stays always. -/
theorem addRegistersWrapsAndCarries : Obligations.AddRegistersWrapsAndCarries := by
  intro x y s
  refine ⟨_, rfl, changesOnlyRegs_setResultThenFlag s x _ _, fun hx => ?_, ?_⟩
  · rw [reg_setResultThenFlag_result s _ _ hx, BitVec.toNat_add]
  · rw [reg_setResultThenFlag_vf, carryFlag_toNat]

theorem exec_shr (x : Reg) (s : State) :
    exec (.shr x) s = .next (s.setResultThenFlag x (s.reg x >>> 1) (shrFlag (s.reg x))) := rfl

theorem exec_shl (x : Reg) (s : State) :
    exec (.shl x) s = .next (s.setResultThenFlag x (s.reg x <<< 1) (shlFlag (s.reg x))) := rfl

theorem toNat_ushiftRight_one (b : Byte) : (b >>> 1).toNat = b.toNat / 2 := by
  rw [BitVec.toNat_ushiftRight, Nat.shiftRight_one]

theorem toNat_shiftLeft_one (b : Byte) : (b <<< 1).toNat = 2 * b.toNat % 256 := by
  rw [BitVec.toNat_shiftLeft, Nat.shiftLeft_eq, pow_one, Nat.mul_comm]

/-- Settles O26: shifting by one place halves or doubles the number, and the flag is the bit shifted out. -/
theorem shiftsMoveOneBitIntoTheFlag : Obligations.ShiftsMoveOneBitIntoTheFlag := by
  intro x s hx
  constructor
  · obtain ⟨t, ht, hframe, hresult, hflag⟩ := exists_next_of_setResultThenFlag hx (exec_shr x s)
    exact ⟨t, ht, hframe, by rw [hresult, toNat_ushiftRight_one], by rw [hflag, shrFlag_toNat]⟩
  · obtain ⟨t, ht, hframe, hresult, hflag⟩ := exists_next_of_setResultThenFlag hx (exec_shl x s)
    exact ⟨t, ht, hframe, by rw [hresult, toNat_shiftLeft_one], by rw [hflag, shlFlag_toNat]⟩

/-- An instruction that writes a result and then the flag, with register 15 as the destination. -/
theorem exists_next_of_flag_last {i : Instr} {s : State} {b f : Byte} (h : exec i s = .next (s.setResultThenFlag 15 b f)) :
    ∃ t, exec i s = .next t ∧ ChangesOnlyRegs (· = 15) s t ∧ t.reg 15 = f := by
  rw [setResultThenFlag_vf] at h
  exact ⟨_, h, changesOnlyRegs_setReg s 15 f, reg_setReg_same s 15 f⟩

/-- Settles O27: the flag is written over the result. -/
theorem flagIsWrittenLast : Obligations.FlagIsWrittenLast := by
  intro y s
  refine ⟨?_, ?_, ?_, ?_⟩
  · obtain ⟨t, ht, hframe, hflag⟩ := exists_next_of_flag_last (exec_subReg 15 y s)
    exact ⟨t, ht, hframe, by rw [hflag, subFlag_eq]⟩
  · obtain ⟨t, ht, hframe, hflag⟩ := exists_next_of_flag_last (exec_subnReg 15 y s)
    exact ⟨t, ht, hframe, by rw [hflag, subnFlag_eq]⟩
  · obtain ⟨t, ht, hframe, hflag⟩ := exists_next_of_flag_last (exec_shr 15 s)
    exact ⟨t, ht, hframe, by rw [hflag, shrFlag_toNat]⟩
  · obtain ⟨t, ht, hframe, hflag⟩ := exists_next_of_flag_last (exec_shl 15 s)
    exact ⟨t, ht, hframe, by rw [hflag, shlFlag_toNat]⟩

/-- Settles O28: nothing is used of the draw but that it is masked. -/
theorem randomByteIsMaskedAndFree : Obligations.RandomByteIsMaskedAndFree := by
  intro x kk s
  refine ⟨_, rfl, ⟨_, rfl, fun b _ => ?_⟩, fun r hr => reg_setReg_of_ne s _ hr, fun _ => rfl, rfl⟩
  exact (congrArg (BitVec.getLsbD · b) (reg_setReg_same s x _)).trans BitVec.getLsbD_and

end Sys2Proof.Machine
end

section
/-! PROOFS. Control flow (spec/41_control_flow.md) and the instructions that do nothing (spec/40_cycle_and_system.md). -/

namespace Sys2Proof.Machine

/-- Settles O29. -/
theorem sysAndFallbackDoNothing : Obligations.SysAndFallbackDoNothing := fun _ => ⟨fun _ => rfl, rfl⟩

/-! ### jumps and skips -/

theorem changesOnlyPc_setPc (s : State) (a : Word) : ChangesOnlyPc s (s.setPc a) := ⟨fun _ => rfl, rfl⟩

theorem changesOnlyPc_skipIf (s : State) (c : Bool) : ChangesOnlyPc s (s.skipIf c) :=
  ⟨fun _ => by rw [skipIf_mem], skipIf_eq s c⟩

/-- Settles O30: each writes its target. -/
theorem jumpsSetOnlyThePc : Obligations.JumpsSetOnlyThePc :=
  fun nnn s => ⟨⟨_, rfl, changesOnlyPc_setPc s _, zextAddr_toNat nnn⟩,
    ⟨_, rfl, changesOnlyPc_setPc s _, offsetTarget_toNat nnn (s.reg 0)⟩⟩

section
variable {i : Instr} {s : State} {c : Bool} {p : Prop} [Decidable p]

/-- An instruction that skips on a condition, seen from outside. -/
theorem exists_next_of_skipIf (h : exec i s = .next (s.skipIf c)) (hc : c = true ↔ p) :
    ∃ t, exec i s = .next t ∧ ChangesOnlyPc s t ∧ t.pc = if p then s.pc + 2 else s.pc :=
  ⟨_, h, changesOnlyPc_skipIf s c, by simp only [skipIf_pc, hc]⟩

/-- The same for a skip on the condition's failing. -/
theorem exists_next_of_skipIf_not (h : exec i s = .next (s.skipIf (!c))) (hc : c = true ↔ p) :
    ∃ t, exec i s = .next t ∧ ChangesOnlyPc s t ∧ t.pc = if p then s.pc else s.pc + 2 :=
  ⟨_, h, changesOnlyPc_skipIf s _, by simp only [skipIf_pc, Bool.not_eq_true', ← Bool.not_eq_true, hc, ite_not]⟩

end

/-- Bytes are equal when their numbers are. -/
theorem byte_beq_iff (a b : Byte) : (a == b) = true ↔ a.toNat = b.toNat := by rw [beq_iff_eq, BitVec.toNat_inj]

/-- Settles O35: the two equality tests and their negations. -/
theorem skipsAdvanceByTwoMore : Obligations.SkipsAdvanceByTwoMore :=
  fun x y kk s => ⟨exists_next_of_skipIf rfl (byte_beq_iff (s.reg x) kk),
    exists_next_of_skipIf_not rfl (byte_beq_iff (s.reg x) kk),
    exists_next_of_skipIf rfl (byte_beq_iff (s.reg x) (s.reg y)),
    exists_next_of_skipIf_not rfl (byte_beq_iff (s.reg x) (s.reg y))⟩

/-! ### CALL and RET -/

/-- Settles O31: the push writes the slot that SP named and counts it. -/
theorem callPushesTheNextAddress : Obligations.CallPushesTheNextAddress := by
  intro nnn s hsp
  refine ⟨_, exec_call_of_room nnn hsp, zextAddr_toNat nnn, rfl, fun k => ?_, fun _ => rfl, rfl⟩
  simp [Vector.getElem_set, eq_comm]

/-- RET with a slot in use: `pc` is the slot below SP (R110). -/
theorem exec_ret_of_succ {s : State} {k : Fin 16} (h : s.sp.val = k.val + 1) :
    exec .ret s = .next { s with pc := s.stack[k], sp := k.castSucc } := by
  rw [exec_ret_of_held (by omega)]
  simp [State.pop, State.setPc, h, Fin.castSucc, Fin.castAdd, Fin.castLE]

/-- Settles O32. -/
theorem returnPopsIntoThePc : Obligations.ReturnPopsIntoThePc :=
  fun _ _ h => ⟨_, exec_ret_of_succ h, rfl, rfl, fun _ => rfl, rfl⟩

/-- Settles O33: the two limits of the stack. -/
theorem stackLimitsLatchTheirFaults : Obligations.StackLimitsLatchTheirFaults :=
  fun nnn _ => ⟨fun h => ⟨zextAddr nnn, zextAddr_toNat nnn, exec_call_of_full nnn h⟩, exec_ret_of_empty⟩

/-- Settles O34: the slot below the SP that CALL left is the one CALL wrote. -/
theorem returnComesBackToTheCall : Obligations.ReturnComesBackToTheCall := by
  intro nnn s t u hsp h husp hustack
  rw [exec_call_of_room nnn hsp] at h
  cases h
  have hu : u.sp.val = (⟨s.sp.val, hsp⟩ : Fin 16).val + 1 := by rw [husp]; rfl
  refine ⟨_, exec_ret_of_succ hu, ?_, rfl, rfl⟩
  simp [hustack]

end Sys2Proof.Machine
end

section
/-! PROOFS. The index pointer and memory (spec/43_index_memory.md, spec/20_memory.md): what is stored where, what a
restore and a fetch read back, and the accesses that do not fit. -/

namespace Sys2Proof.Machine

/-- Settles O42: the laws of one byte, in the canonical form. -/
theorem writtenByteIsReadBack : Obligations.WrittenByteIsReadBack :=
  fun m a b hm => ⟨fun ha => Memory.read_write_same hm ha b, fun _ hc => Memory.read_write_of_ne m b hc,
    Memory.wf_write hm a b, Memory.write_of_ge m b⟩

/-- Settles O36: each writes `I`. -/
theorem indexPointerInstructions : Obligations.IndexPointerInstructions := by
  intro nnn x s
  refine ⟨⟨_, rfl, zextAddr_toNat nnn, fun _ => rfl, rfl⟩, ⟨_, rfl, ?_, fun _ => rfl, rfl⟩,
    ⟨_, rfl, fun hc => ?_, fun _ => rfl, rfl⟩⟩
  · rw [setI_i, BitVec.toNat_add, zextByte_toNat]
  · obtain ⟨hfont, hrom, -⟩ := (Config.wf_iff _).mp hc
    exact glyphAddress_toNat (by omega) (s.reg x)

/-! ### what a store leaves in memory -/

/-- A sequence of bytes written in bounds, read at any address. -/
theorem Memory.read_writeBytes {m : Memory} (hm : m.wf = true) {a : Nat} {bs : List Byte}
    (h : a + bs.length ≤ Config.memSize) (c : Nat) :
    (m.writeBytes a bs).read c = if a ≤ c then (bs[c - a]?).getD (m.read c) else m.read c := by
  by_cases hac : a ≤ c
  · rw [if_pos hac]
    cases hb : bs[c - a]? with
    | none =>
      have hlen := List.getElem?_eq_none_iff.mp hb
      exact Memory.read_writeBytes_of_outside m bs (by omega)
    | some b =>
      have hread := Memory.read_writeBytes_inside hm bs h (c - a) b hb
      rwa [Nat.add_sub_cancel' hac] at hread
  · rw [if_neg hac]
    exact Memory.read_writeBytes_of_outside m bs (by omega)

/-- The three digits as numbers (R166). -/
theorem bcdDigits_eq (b : Byte) :
    bcdDigits b = [BitVec.ofNat 8 (b.toNat / 100), BitVec.ofNat 8 (b.toNat / 10 % 10), BitVec.ofNat 8 (b.toNat % 10)] := by
  have := b.isLt
  simp [bcdDigits, ← BitVec.toNat_inj]
  omega

/-- After LD B,Vx in bounds an address reads as the byte stored there, or as before. -/
theorem read_of_ldBVx {x : Reg} {s : State} (hm : s.mem.wf = true) (h : s.i.toNat + 2 < 4096) (a : Nat) :
    (s.mem.writeBytes s.i.toNat (bcdDigits (s.reg x))).read a = (storedByte (.ldBVx x) s a).getD (s.mem.read a) := by
  rw [Memory.read_writeBytes hm h, bcdDigits_eq, storedByte]
  by_cases hle : s.i.toNat ≤ a
  · obtain ⟨k, rfl⟩ := Nat.exists_eq_add_of_le hle
    rw [if_pos hle, Nat.add_sub_cancel_left]
    match k with
    | 0 => simp
    | 1 => simp
    | 2 => simp
    | k + 3 => simp
  · rw [if_neg hle, if_neg (by omega), if_neg (by omega), if_neg (by omega)]; rfl

/-- After LD [I],Vx in bounds an address reads as the byte stored there, or as before. -/
theorem read_of_ldMemVx {x : Reg} {s : State} (hm : s.mem.wf = true) (h : s.i.toNat + x.val < 4096) (a : Nat) :
    (s.mem.writeBytes s.i.toNat (savedBytes s x)).read a = (storedByte (.ldMemVx x) s a).getD (s.mem.read a) := by
  rw [Memory.read_writeBytes hm (by rw [length_savedBytes]; exact h), storedByte]
  by_cases hle : s.i.toNat ≤ a
  · by_cases hk : a - s.i.toNat ≤ x.val
    · rw [if_pos hle, dif_pos ⟨hle, hk⟩, getElem?_savedBytes s x ⟨a - s.i.toNat, Nat.lt_of_le_of_lt hk x.isLt⟩ hk]
    · rw [if_pos hle, dif_neg fun hin => hk hin.2, List.getElem?_eq_none (by rw [length_savedBytes]; omega)]
  · rw [if_neg hle, dif_neg fun hin => hle hin.1]; rfl

/-- A store that completes, read back at any address. -/
theorem read_of_store {i : Instr} {s t : State} (hi : (∃ x, i = .ldMemVx x) ∨ ∃ x, i = .ldBVx x) (hm : s.mem.wf = true)
    (h : exec i s = .next t) (ht : t.fault = none) (a : Nat) :
    t.mem.read a = (storedByte i s a).getD (s.mem.read a) := by
  rcases hi with ⟨x, rfl⟩ | ⟨x, rfl⟩
  · rcases exec_ldMemVx_cases x s with ⟨hfits, hs⟩ | ⟨-, hs⟩ <;> rw [hs] at h <;> cases h
    · exact read_of_ldMemVx hm hfits a
    · cases ht
  · rcases exec_ldBVx_cases x s with ⟨hfits, hs⟩ | ⟨-, hs⟩ <;> rw [hs] at h <;> cases h
    · exact read_of_ldBVx hm hfits a
    · cases ht

/-- Settles O37: the digits where LD B,Vx stores them, and nothing elsewhere. -/
theorem bcdStoresThreeDigits : Obligations.BcdStoresThreeDigits := by
  intro x s hm h
  have := (s.reg x).isLt
  have hread := read_of_ldBVx (x := x) hm h
  refine ⟨_, exec_ldBVx_of_fits x h, ?_, ?_, ?_, fun a ha => ?_, rfl⟩
  · simp [hread, storedByte]; omega
  · simp [hread, storedByte]; omega
  · simp [hread, storedByte]; omega
  · rw [hread, storedByte, if_neg (by omega), if_neg (by omega), if_neg (by omega)]; rfl

/-- The byte a save stores for a register it covers. -/
theorem storedByte_ldMemVx {x k : Reg} (s : State) (hk : k.val ≤ x.val) :
    storedByte (.ldMemVx x) s (s.i.toNat + k.val) = some (s.reg k) := by
  simp [storedByte, hk]

/-- Settles O38: the registers where LD [I],Vx stores them, and nothing elsewhere. -/
theorem saveStoresTheRegisters : Obligations.SaveStoresTheRegisters := by
  intro x s hm h
  have hread := read_of_ldMemVx (x := x) hm h
  refine ⟨_, exec_ldMemVx_of_fits x h, fun k hk => ?_, fun a ha => ?_, rfl⟩
  · rw [hread, storedByte_ldMemVx s hk]; rfl
  · rw [hread, storedByte, dif_neg (by omega)]; rfl

/-! ### reading back -/

/-- Settles O39: the register file is the restored one. -/
theorem restoreLoadsTheRegisters : Obligations.RestoreLoadsTheRegisters := by
  intro x s h
  refine ⟨_, exec_ldVxMem_of_fits x h, ⟨fun r hr => ?_, fun _ => rfl, rfl⟩, fun k hk => ?_⟩
  · rw [reg_restored, if_neg hr]
  · rw [reg_restored, if_pos hk]

/-- Settles O40: the restore reads the bytes the save stored, at the addresses it stored them at. -/
theorem restoreAfterSaveBringsTheRegistersBack : Obligations.RestoreAfterSaveBringsTheRegistersBack := by
  intro x s t u hm h ht hmem hi
  obtain ⟨t', ht', hsaved, -, -⟩ := saveStoresTheRegisters x s hm h
  cases ht'.symm.trans ht
  obtain ⟨w, hw, ⟨habove, -, -⟩, hloaded⟩ := restoreLoadsTheRegisters x u (hi ▸ h)
  refine ⟨w, hw, fun k hk => ?_, fun k hk => habove k (Nat.not_le.mpr hk)⟩
  rw [hloaded k hk, hmem, hi, hsaved k hk]

/-- Settles O43: the bytes at `pc` are read from the memory the store left. -/
theorem storeIsSeenByTheNextFetch : Obligations.StoreIsSeenByTheNextFetch := by
  intro i s t u op hi hm _ h ht hmem huf hue hupc hop
  have hread := read_of_store hi hm h ht
  rw [← hread, ← hread, ← hmem] at hop
  exact stepRunsTheDecodedInstruction u op huf hue hupc hop

/-! ### accesses that do not fit -/

/-- Settles O41: the range check comes first, so the state is the one `rangeFaulted` gives. -/
theorem outOfRangeAccessHasNoPartialEffect : Obligations.OutOfRangeAccessHasNoPartialEffect := by
  intro x y n s
  simp only [← lowestOutOfRange_eq]
  exact ⟨rfl, exec_ldBVx_of_overruns x, fun h => ⟨exec_ldMemVx_of_overruns x h, exec_ldVxMem_of_overruns x h⟩,
    exec_drw_of_overruns x y n⟩

end Sys2Proof.Machine
end

section
/-! PROOFS. The keys and the timers (spec/45_keys_timers.md). -/

namespace Sys2Proof.Machine

/-- Settles O48: the register's value names the key. -/
theorem keySkipsTestTheNamedKey : Obligations.KeySkipsTestTheNamedKey :=
  fun _ _ _ h => ⟨exists_next_of_skipIf (exec_skp_of_key h) Iff.rfl,
    exists_next_of_skipIf_not (exec_sknp_of_key h) Iff.rfl⟩

/-- Settles O49: a value that names no key is the record's information. -/
theorem keyIndexAboveFifteenFaults : Obligations.KeyIndexAboveFifteenFaults :=
  fun x s h => ⟨zextByte (s.reg x), zextByte_toNat _, exec_skp_of_noKey h, exec_sknp_of_noKey h⟩

/-- Settles O50: the scan finds the smallest pressed key, or none. -/
theorem waitForKeyTakesTheLowestKey : Obligations.WaitForKeyTakesTheLowestKey := by
  intro x s
  refine ⟨fun k hk hj => ⟨_, exec_ldVxK_of_pressed x hk hj, changesOnlyRegs_setReg s x _, ?_⟩, exec_ldVxK_of_none x⟩
  have := k.isLt
  rw [reg_setReg_same, BitVec.toNat_ofNat]
  omega

/-- Settles O52. -/
theorem timerCopiesArePlain : Obligations.TimerCopiesArePlain :=
  fun x s => ⟨⟨_, rfl, changesOnlyRegs_setReg s x _, reg_setReg_same s x _⟩, rfl, rfl⟩

end Sys2Proof.Machine
end

section
/-! PROOFS. The display (spec/44_display.md): clearing, the raster-line detector, and drawing once and twice. -/

namespace Sys2Proof.Machine

/-- Settles O44: the blank framebuffer. -/
theorem clearZeroesEveryCell : Obligations.ClearZeroesEveryCell :=
  fun _ => ⟨_, rfl, Frame.shaped_blank _ _, Frame.cell_blank _ _, fun _ => rfl, rfl⟩

/-- Settles O45: the drawing of a whole sprite, with the flag written after it. -/
theorem drawXorsTheClippedSprite : Obligations.DrawXorsTheClippedSprite := by
  intro x y n s hs h
  obtain ⟨hshape, hcell, hhit⟩ := drawSprite_spec x y n hs
  refine ⟨_, exec_drw_of_fits x y n h, hshape, hcell, ?_, ?_, fun r hr => reg_setReg_of_ne _ _ hr, fun _ => rfl, rfl⟩
  · rw [vf_drawn]
    cases (drawSprite s x y n).2
    · exact .inl rfl
    · exact .inr rfl
  · rw [vf_drawn, collisionFlag_eq_one_iff, hhit]

/-- Settles O46: one row drawn on a line that is there. -/
theorem rasterLineDetector : Obligations.RasterLineDetector := by
  intro width height fb sprite ax py hfb hpy
  obtain ⟨line, hline, hlen⟩ := Frame.shaped.getElem? hfb hpy
  have hlt : py < fb.length := (List.getElem?_eq_some_iff.mp hline).1
  have hmask : (rowMask width sprite ax).length = line.length := by rw [length_rowMask, hlen]
  rw [drawRows_cons_of_some hline]
  refine ⟨fun col hcol => ?_, fun col _ => ?_, fun row col hrow => ?_, ?_⟩
  · have hcols : ax ≤ col ∧ col - ax ≤ 7 ↔ ax ≤ col ∧ col < ax + 8 := by omega
    rw [cell_rowMask _ _ _ _ hcol, ← Bool.decide_and, if_congr hcols rfl rfl]
    by_cases hin : ax ≤ col ∧ col < ax + 8
    · rw [if_pos hin, decide_eq_true hin, Bool.true_and]
    · rw [if_neg hin, decide_eq_false hin, Bool.false_and]
  · rw [drawRows, Frame.cell_set fb _ hlt, if_pos rfl, cell_flipLine hmask, Frame.cell_of_some hline]
  · rw [drawRows, Frame.cell_set fb _ hlt, if_neg hrow]
  · simp only [drawRows, Bool.or_false, lineHit_iff, Frame.cell_of_some hline]
    constructor
    · rintro ⟨col, hlit, hbit⟩
      obtain ⟨-, hcol⟩ := Frame.shaped.lt_of_cell hfb ((Frame.cell_of_some hline col).trans hlit)
      exact ⟨col, hcol, hlit, hbit⟩
    · rintro ⟨col, -, hlit, hbit⟩
      exact ⟨col, hlit, hbit⟩

/-- DRW with coordinates not in `VF` leaves everything its next draw reads but the framebuffer. -/
theorem drawnBit_drawn {x y : Reg} (n : Fin 16) (s : State) (hx : x ≠ 15) (hy : y ≠ 15) (row col : Nat) :
    drawnBit x y n (drawn x y n s) row col = drawnBit x y n s row col := by
  have hreg : ∀ r, r ≠ 15 → (drawn x y n s).reg r = s.reg r := fun r hr => reg_setReg_of_ne _ _ hr
  rw [drawnBit, hreg x hx, hreg y hy]; rfl

/-- Settles O47: the second draw puts the same bits on the same cells, so it undoes the first and meets a lit cell where
the first lit one. -/
theorem drawingTwiceRestoresTheScreen : Obligations.DrawingTwiceRestoresTheScreen := by
  intro x y n s t u hs hx hy h ht hu
  obtain ⟨hshape, hcell, -⟩ := drawSprite_spec x y n hs
  rw [exec_drw_of_fits x y n h] at ht
  cases ht
  rw [exec_drw_of_fits (s := drawn x y n s) x y n h] at hu
  cases hu
  obtain ⟨hshape', hcell', hhit'⟩ := drawSprite_spec x y n (s := drawn x y n s) hshape
  simp only [drawnBit_drawn n s hx hy, config_drawn, fb_drawn] at hshape' hcell' hhit'
  simp only [fb_drawn, vf_drawn, collisionFlag_eq_one_iff, hhit']
  refine ⟨Frame.ext_cell hshape' hs fun row col hrow hcol => ?_, ?_, ?_⟩
  · rw [hcell' row col hrow hcol, hcell row col hrow hcol, Bool.xor_assoc, Bool.xor_self, Bool.xor_false]
  · rintro ⟨row, col, hrow, hcol, hlit, hbit⟩
    rw [hcell row col hrow hcol, hbit] at hlit
    exact ⟨row, col, by simpa using hlit, by rw [hcell row col hrow hcol, hbit, hlit]⟩
  · rintro ⟨row, col, hunlit, hlit⟩
    obtain ⟨hrow, hcol⟩ := Frame.shaped.lt_of_cell hshape hlit
    refine ⟨row, col, hrow, hcol, hlit, ?_⟩
    rwa [hcell row col hrow hcol, hunlit, Bool.false_xor] at hlit

end Sys2Proof.Machine
end
